-- ==== Sys2Proof/Word.lean ====
section
/-! DEFINITION. The two widths of the block: 16-bit words and 12-bit addresses (R4, R5, R6). -/

namespace Sys2Proof

/-- A Word, 16 bits unsigned: IR, AC, DR and every memory cell (R4). -/
abbrev Word := BitVec 16

/-- An Address, 12 bits unsigned: PC, AR and the address field of an instruction (R4). -/
abbrev Address := BitVec 12

/-- The number of words of the one address space (R4 `MEM_WORDS`, R27). -/
def memWords : Nat := 4096

end Sys2Proof
end

