-- ==== Sys2Proof/Config.lean ====
section
/-! DEFINITION. The parameters of the block (R4). A fifth one, `rriBitMap` (which bit enables which
micro-operation), is declared under this namespace in Decode.lean, beside the decoder and the encoder that read it. -/

namespace Sys2Proof.Config

/-- R4 `unmappedOpcodePolicy`: "no other value is admitted" (D4). -/
inductive UnmappedOpcodePolicy where
  | fault
  deriving DecidableEq, Repr

/-- The settings a build of the block may be asked to run with (R4). -/
structure Settings where
  /-- R4, R51 `indirectEnabled`. -/
  indirectEnabled : Bool
  /-- R4, R50 `unmappedOpcodePolicy`. -/
  unmappedOpcodePolicy : UnmappedOpcodePolicy
  deriving DecidableEq, Repr

/-- This hardware: indirect addressing off, unmapped opcodes fault (R4, R51, D4, D5). -/
def hardware : Settings := { indirectEnabled := false, unmappedOpcodePolicy := .fault }

/-- R4 `COUNTER_WIDTH`, OPEN (D11): the width of a build's profiler counters. No rule reads it, and the model's
counters are unbounded naturals (R20, R108); Safety.lean states the bound a claim about a build's counters carries. -/
opaque counterWidth : Nat

/-- `CLOCKS_PER_MICROCYCLE`, OPEN (R73, D2). No rule reads it. -/
opaque clocksPerMicrocycle : Nat

end Sys2Proof.Config
end

