-- ==== Sys2Proof/Syntax.lean ====
section
/-! DEFINITION. The instructions, one constructor per row of the opcode table, and the spec's own intermediate
value, the OperationDescriptor (R44 to R52). -/

namespace Sys2Proof

/-- The seven memory-reference operations, in the order of the source's table (R46). -/
inductive MriOp where
  | and | add | lda | sta | bun | bsa | isz
  deriving DecidableEq, Repr

/-- The twelve register-reference micro-operations, in the order of the source's list (R48). -/
inductive MicroOp where
  | cla | cle | cma | cme | cir | cil | inc | spa | sna | sza | sze | hlt
  deriving DecidableEq, Repr

/-- The twelve micro-operations in list order (R48). -/
def MicroOp.all : List MicroOp :=
  [.cla, .cle, .cma, .cme, .cir, .cil, .inc, .spa, .sna, .sza, .sze, .hlt]

/-- The twelve enable bits of a register-reference word, `IR[11:0]` (R44, R48). -/
abbrev Enables := BitVec 12

/-- What the decoder computes from IR (R52). It is no state: R26. -/
inductive OperationDescriptor where
  | registerRef (enables : Enables)
  | memoryRef (mnemonic : MriOp) (addressField : Address)
  | unmapped (opcodeTop : BitVec 4)
  deriving DecidableEq, Repr

/-- The instructions, one constructor per row of the opcode table. -/
inductive Instr where
  /-- AND (R75). -/
  | and (addr : Address)
  /-- ADD (R76). -/
  | add (addr : Address)
  /-- LDA (R77). -/
  | lda (addr : Address)
  /-- STA (R78). -/
  | sta (addr : Address)
  /-- BUN (R79). -/
  | bun (addr : Address)
  /-- BSA (R80). -/
  | bsa (addr : Address)
  /-- ISZ (R81). -/
  | isz (addr : Address)
  /-- CLA alone, word 0x7800 (R83). -/
  | cla
  /-- CLE alone, word 0x7400 (R84). -/
  | cle
  /-- CMA alone, word 0x7200 (R85). -/
  | cma
  /-- CME alone, word 0x7100 (R86). -/
  | cme
  /-- CIR alone, word 0x7080 (R87). -/
  | cir
  /-- CIL alone, word 0x7040 (R88). -/
  | cil
  /-- INC alone, word 0x7020 (R89). -/
  | inc
  /-- SPA alone, word 0x7010 (R90). -/
  | spa
  /-- SNA alone, word 0x7008 (R91). -/
  | sna
  /-- SZA alone, word 0x7004 (R92). -/
  | sza
  /-- SZE alone, word 0x7002 (R93). -/
  | sze
  /-- HLT alone, word 0x7001 (R94). -/
  | hlt
  /-- RRI-combination: two or more enable bits (R49, R82). -/
  | rri (enables : Enables)
  /-- NOP, the register-reference word with no enable bit, 0x7000 (R49, R96). -/
  | nop
  /-- UNMAPPED, a word 0x8000 to 0xFFFF, carried whole (R50, R100). -/
  | unmapped (word : Word)
  deriving DecidableEq, Repr

/-- The memory-reference instruction of a mnemonic and an address field (R46, R47). -/
def Instr.ofMri : MriOp → Address → Instr
  | .and, a => .and a
  | .add, a => .add a
  | .lda, a => .lda a
  | .sta, a => .sta a
  | .bun, a => .bun a
  | .bsa, a => .bsa a
  | .isz, a => .isz a

/-- The instruction that enables one micro-operation and no other (R48). -/
def Instr.ofMicroOp : MicroOp → Instr
  | .cla => .cla
  | .cle => .cle
  | .cma => .cma
  | .cme => .cme
  | .cir => .cir
  | .cil => .cil
  | .inc => .inc
  | .spa => .spa
  | .sna => .sna
  | .sza => .sza
  | .sze => .sze
  | .hlt => .hlt

end Sys2Proof
end

