-- ==== Sys2Proof/WellFormed.lean ====
section
/-! DEFINITION. Which terms of Instr stand for a word of the opcode table. A memory-reference address is 12 bits
by its type, so only the combination row and the unmapped row carry a check. -/

namespace Sys2Proof

/-- At least two enable bits are set (no bit is NOP's row, one bit is a canonical row). -/
def Enables.severalSet (en : Enables) : Bool := (en &&& (en - 1#12)) != 0#12

/-- `opcodeTop` is 0x8 to 0xF exactly when bit 15 is set (R50). -/
def Instr.wellFormed : Instr → Bool
  | .and _ => true
  | .add _ => true
  | .lda _ => true
  | .sta _ => true
  | .bun _ => true
  | .bsa _ => true
  | .isz _ => true
  | .cla => true
  | .cle => true
  | .cma => true
  | .cme => true
  | .cir => true
  | .cil => true
  | .inc => true
  | .spa => true
  | .sna => true
  | .sza => true
  | .sze => true
  | .hlt => true
  | .rri en => en.severalSet
  | .nop => true
  | .unmapped w => w.getLsbD 15

end Sys2Proof
end

