-- ==== Sys2Proof/Decode.lean ====
section
/-! DEFINITION. The decoder (R44 to R53), total on 16-bit words, and the encoder written from the same tables. -/

namespace Sys2Proof

/-- The configuration table `rriBitMap` (D3): the bit of `IR[11:0]` that enables each micro-operation. Bit `11 - k`
enables the k-th of the list (R48). The source gives only HLT = 0x7001; the rest of the map is the spec's decision. -/
def Config.rriBitMap : MicroOp → Nat
  | .cla => 11
  | .cle => 10
  | .cma => 9
  | .cme => 8
  | .cir => 7
  | .cil => 6
  | .inc => 5
  | .spa => 4
  | .sna => 3
  | .sza => 2
  | .sze => 1
  | .hlt => 0

/-- `opcodeTop = IR[15:12]` (R44). -/
def opcodeTop (ir : Word) : BitVec 4 := ir.extractLsb' 12 4

/-- `low12 = IR[11:0]` (R44): the address field or the enable bits. -/
def low12 (ir : Word) : BitVec 12 := ir.extractLsb' 0 12

/-- Does the enable set switch this micro-operation on? (R48) -/
def enabled (en : Enables) (op : MicroOp) : Bool := en.getLsbD (Config.rriBitMap op)

/-- The enable set of the canonical single-bit code (R48). -/
def canonicalBit (op : MicroOp) : Enables := 1#12 <<< Config.rriBitMap op

/-- The opcode of register-reference words (R45). -/
def rriOpcode : BitVec 4 := 0x7#4

/-- The fixed table of memory-reference mnemonics, entry N for opcode N (R46). -/
def mriTable : List MriOp := [.and, .add, .lda, .sta, .bun, .bsa, .isz]

/-- The opcode of a memory-reference mnemonic (R45, R46). -/
def mriOpcode : MriOp → BitVec 4
  | .and => 0x0#4
  | .add => 0x1#4
  | .lda => 0x2#4
  | .sta => 0x3#4
  | .bun => 0x4#4
  | .bsa => 0x5#4
  | .isz => 0x6#4

/-- The spec's `decode` (R52): total, pure, on IR alone. -/
def descriptor (ir : Word) : OperationDescriptor :=
  if opcodeTop ir = rriOpcode then .registerRef (low12 ir)
  else
    match mriTable[(opcodeTop ir).toNat]? with
    | some m => .memoryRef m (low12 ir)
    | none => .unmapped (opcodeTop ir)

/-- The table row of a register-reference word: the specific rows (NOP, the canonical codes) before the
combination row (opcode table, note of the combination row). -/
def decodeEnables (en : Enables) : Instr :=
  if en = 0#12 then .nop
  else
    match MicroOp.all.find? (fun op => canonicalBit op == en) with
    | some op => .ofMicroOp op
    | none => .rri en

/-- The instruction of a word (R52). Every 16-bit word has one: R49 and R50 leave none to reject. -/
def decode (ir : Word) : Instr :=
  match descriptor ir with
  | .registerRef en => decodeEnables en
  | .memoryRef m a => .ofMri m a
  | .unmapped _ => .unmapped ir

/-- A memory-reference word: opcode, then the address field (R44, R46, R54). -/
def mriWord (m : MriOp) (a : Address) : Word := mriOpcode m ++ a

/-- A register-reference word: 0x7, then the enable bits (R44, R54). -/
def rriWord (en : Enables) : Word := rriOpcode ++ en

/-- The word of an instruction (R44, R46, R48, R54). -/
def encode : Instr → Word
  | .and a => mriWord .and a
  | .add a => mriWord .add a
  | .lda a => mriWord .lda a
  | .sta a => mriWord .sta a
  | .bun a => mriWord .bun a
  | .bsa a => mriWord .bsa a
  | .isz a => mriWord .isz a
  | .cla => rriWord (canonicalBit .cla)
  | .cle => rriWord (canonicalBit .cle)
  | .cma => rriWord (canonicalBit .cma)
  | .cme => rriWord (canonicalBit .cme)
  | .cir => rriWord (canonicalBit .cir)
  | .cil => rriWord (canonicalBit .cil)
  | .inc => rriWord (canonicalBit .inc)
  | .spa => rriWord (canonicalBit .spa)
  | .sna => rriWord (canonicalBit .sna)
  | .sza => rriWord (canonicalBit .sza)
  | .sze => rriWord (canonicalBit .sze)
  | .hlt => rriWord (canonicalBit .hlt)
  | .rri en => rriWord en
  | .nop => rriWord 0#12
  | .unmapped w => w

/-- The decoder on a word numbered as the opcode table numbers it. Every instruction is one 16-bit word (R43), so a
longer one, or a number with a bit above the word, is no instruction. -/
def decodeTableWord (nbits w : Nat) : Option Instr :=
  if nbits ≤ 16 ∧ w < 2 ^ 16 then some (decode (BitVec.ofNat 16 w)) else none

end Sys2Proof
end

