-- ==== Sys2Proof/Machine/State.lean ====
section
/-! DEFINITION. The state of the block: exactly the elements of R9, as plain data, and its reset value (R113). -/

namespace Sys2Proof.Machine

/-- MicrocycleState T: the microcycle the next stepMicro performs (R18). T0 FETCH_ADDR, T1 FETCH_INSTR, T2 DECODE,
T3 ADDR_OR_EXEC, T4 MEM_ACCESS, T5 ALU_COMMIT. -/
inductive MicrocycleState where
  | t0 | t1 | t2 | t3 | t4 | t5
  deriving DecidableEq, Repr

/-- The four profiler counters, unbounded naturals (R20, R108, D11). -/
structure Profiler where
  cycles : Nat
  instructions : Nat
  reads : Nat
  writes : Nat
  deriving DecidableEq, Repr

/-- One listed word of memory: its word address and its value. The block has no bytes (R27). -/
abbrev MemCell := Nat × Word

/-- The memory array M (R19) in one canonical form: addresses strictly rising, no word 0x0000 listed. An address
that is not listed reads as 0x0000, its reset value (R113). -/
abbrev Memory := List MemCell

/-- The state of the block (R9). -/
structure State where
  /-- Program counter (R11). -/
  pc : Address
  /-- Address register (R12). -/
  ar : Address
  /-- Instruction register (R13). -/
  ir : Word
  /-- Accumulator (R10). -/
  ac : Word
  /-- Data register (R14). -/
  dr : Word
  /-- Carry and rotate flag (R15). -/
  e : Bool
  /-- HaltFlag (R16). -/
  halt : Bool
  /-- FaultFlag (R17). -/
  fault : Bool
  /-- The next microcycle (R18). -/
  t : MicrocycleState
  /-- The memory array (R19). -/
  mem : Memory
  /-- The profiler (R20). -/
  cnt : Profiler
  deriving DecidableEq, Repr

/-- Why FAULT was set (R98): one reason exists. -/
inductive FaultReason where
  | unmappedOpcode
  deriving DecidableEq, Repr

/-- Why a step ends without a next state. -/
inductive Fault where
  /-- HALTED (R58, R99): a step asked for while HALT = 1. Raised by the guard of every step, with no state change.
  Safe: nothing runs. -/
  | halted
  /-- FAULTED (R58, R98, R100): a step asked for while FAULT = 1, with the faulting word and its address. Raised by
  the guard of every step, with no state change. Safe: nothing runs. -/
  | faulted (reason : FaultReason) (ir : Word) (addr : Address)
  /-- T4 or T5 with a word that has no such microcycle (R64 "reached only for MEMORY_REF", R65, R67). Raised by the
  T4 and T5 dispatch; no run reaches it. Safe: the machine stops. -/
  | noMicrocycle (t : MicrocycleState) (ir : Word)
  deriving DecidableEq, Repr

/-- Why the model declines to step. -/
inductive Refusal where
  /-- An instruction whose meaning is not written yet. Raised by no arm of exec: all have their meaning. Safe. -/
  | notModelled (mnemonic : String)
  /-- REFUSED(IndirectConfigured) (R101): a model configured with `indirectEnabled = true`. Raised by every command
  under that configuration. Safe: the model gives no step. -/
  | indirectConfigured
  deriving DecidableEq, Repr

/-- The state after reset, and at creation (R113, R115): every element zero, T = T0 (D8). -/
def State.reset : State where
  pc := 0x000#12
  ar := 0x000#12
  ir := 0x0000#16
  ac := 0x0000#16
  dr := 0x0000#16
  e := false
  halt := false
  fault := false
  t := .t0
  mem := []
  cnt := { cycles := 0, instructions := 0, reads := 0, writes := 0 }

end Sys2Proof.Machine
end

