-- ==== Sys2Proof/Machine/Flags.lean ====
section
/-! DEFINITION. The flag computations: E out of ADD and the rotates (R15), and the four skip conditions. No other
operation computes a flag (R15: E is not a condition code). -/

namespace Sys2Proof.Machine

/-- The exact sum of ADD, 0 to 131070 (R76). -/
def addExact (a b : Word) : Nat := a.toNat + b.toNat

/-- ADD's E: the carry out of bit 15, with no carry in (R76). -/
def addCarry (a b : Word) : Bool := decide (65535 < addExact a b)

/-- ADD's AC: the exact sum modulo 65536 (R76). -/
def addWord (a b : Word) : Word := BitVec.ofNat 16 (addExact a b)

/-- CIR's AC: `{E, AC[15:1]}` with the old E (R87). -/
def cirWord (ac : Word) (e : Bool) : Word := BitVec.cons e (ac.extractLsb' 1 15)

/-- CIR's E: the old `AC[0]` (R87). -/
def cirCarry (ac : Word) : Bool := ac.getLsbD 0

/-- CIL's AC: `{AC[14:0], E}` with the old E (R88). -/
def cilWord (ac : Word) (e : Bool) : Word := BitVec.concat (ac.extractLsb' 0 15) e

/-- CIL's E: the old `AC[15]` (R88). -/
def cilCarry (ac : Word) : Bool := ac.getLsbD 15

/-- SPA's test: `AC[15] == 0`, a bit test, so 0 counts as positive (R6, R90). -/
def acPositive (ac : Word) : Bool := !ac.getLsbD 15

/-- SNA's test: `AC[15] == 1` (R91). -/
def acNegative (ac : Word) : Bool := ac.getLsbD 15

/-- SZA's test: `AC == 0x0000` (R92). -/
def acZero (ac : Word) : Bool := ac == 0x0000#16

/-- SZE's test: `E == 0` (R93). -/
def eZero (e : Bool) : Bool := !e

/-- ISZ's incremented word: `(DR + 1) mod 65536` (R81). -/
def iszWord (dr : Word) : Word := dr + 1#16

/-- ISZ's test: the incremented word is zero (R81). -/
def iszSkips (dr : Word) : Bool := iszWord dr == 0x0000#16

end Sys2Proof.Machine
end

