-- ==== Sys2Proof/Machine/Ops.lean ====
section
/-! DEFINITION. The named operations over memory, counters and registers that every microcycle is built from, and
the one exceptional event of the block, setting FAULT (R100). The block has no trap entry that saves state and no
return from one (R105, R106): FAULT is left only by reset and loadImage, which Commands.lean holds. -/

namespace Sys2Proof.Machine

/-! ### Memory -/

/-- `MemRead(a, 1)` on the list (R31): the listed word, else 0x0000. -/
def memRead : Memory → Nat → Word
  | [], _ => 0x0000#16
  | (k, w) :: rest, a => if k = a then w else memRead rest a

/-- `MemWrite(a, 1, v)` on the list (R31). Writing 0x0000, what an unlisted address reads as, removes the entry. -/
def memWrite : Memory → Nat → Word → Memory
  | [], a, v => if v = 0x0000#16 then [] else [(a, v)]
  | (k, w) :: rest, a, v =>
    if a < k then
      if v = 0x0000#16 then (k, w) :: rest else (a, v) :: (k, w) :: rest
    else if a = k then
      if v = 0x0000#16 then rest else (a, v) :: rest
    else (k, w) :: memWrite rest a v

/-- Canonical form from an address on: addresses strictly rising and inside the memory, no word 0x0000 listed. -/
def memWfFrom : Nat → Memory → Bool
  | _, [] => true
  | lo, (k, w) :: rest => decide (lo ≤ k) && decide (k < memWords) && w != 0x0000#16 && memWfFrom (k + 1) rest

/-- The memory is in canonical form. -/
def Memory.wf (m : Memory) : Bool := memWfFrom 0 m

/-- `MemRead(a, 1)` (R31): the word at a 12-bit address; it cannot fail (R28). -/
def State.read (s : State) (a : Address) : Word := memRead s.mem a.toNat

/-- `MemWrite(a, 1, v)` (R31): cannot fail (R28). It does not count: which writes count is the instruction's rule. -/
def State.write (s : State) (a : Address) (v : Word) : State :=
  { s with mem := memWrite s.mem a.toNat v }

/-! ### Counters (R20) -/

/-- `cnt.cycles += 1`, on every microcycle performed (R59). -/
def State.tick (s : State) : State :=
  { s with cnt := { s.cnt with cycles := s.cnt.cycles + 1 } }

/-- `cnt.reads += 1`. -/
def State.countRead (s : State) : State :=
  { s with cnt := { s.cnt with reads := s.cnt.reads + 1 } }

/-- `cnt.writes += 1`. -/
def State.countWrite (s : State) : State :=
  { s with cnt := { s.cnt with writes := s.cnt.writes + 1 } }

/-- The end of an instruction: `cnt.instructions += 1; T <- T0` (R63, R64, R65, R68). -/
def State.complete (s : State) : State :=
  { s with t := .t0, cnt := { s.cnt with instructions := s.cnt.instructions + 1 } }

/-! ### Program counter -/

/-- `(a + 1) mod 4096` (R6, R35): the sum wraps in its 12 bits. -/
def nextAddress (a : Address) : Address := a + 1#12

/-- The skip: `PC <- (PC + 1) mod 4096` (R81, R90 to R93). -/
def State.skip (s : State) : State := { s with pc := nextAddress s.pc }

/-- A step of the pseudocode under a condition. -/
def State.applyIf (b : Bool) (f : State → State) (s : State) : State := if b then f s else s

/-! ### The exceptional event -/

/-- FAULT <- 1 (R100). T, the registers, the memory and the other counters stay; IR and AR keep the faulting word
and its address (D22). -/
def State.raiseFault (s : State) : State := { s with fault := true }

end Sys2Proof.Machine
end

