-- ==== Sys2Proof/Machine/Operands.lean ====
section
/-! DEFINITION. The one operand form of the block, the direct address (R47): how T3 sets it and how T4 reads the
word it names into DR. The block has no register field, no immediate and no indirection (R23, R47, R51). -/

namespace Sys2Proof.Machine

/-- T3 of every memory-reference instruction (R63, R74): `AR <- addressField; T <- T4`. -/
def t3Address (addr : Address) (s : State) : State :=
  { s.tick with ar := addr, t := .t4 }

/-- T4 of AND, ADD, LDA and ISZ (R64): `DR <- MemRead(AR, 1); reads += 1; T <- T5`. -/
def t4ReadOperand (s : State) : State :=
  { s.tick.countRead with dr := s.read s.ar, t := .t5 }

end Sys2Proof.Machine
end

