-- ==== Sys2Proof/Machine/MemoryReference.lean ====
section
/-! DEFINITION. The memory-reference instructions (R74 to R81): the T4 or T5 microcycle that is each one's own, and
each one's meaning, its microcycles from T3 to the end. -/

namespace Sys2Proof.Machine

/-! ### The instructions' own microcycles -/

/-- T5 of AND (R75): `AC <- AC & DR`. -/
def t5And (s : State) : State := ({ s.tick with ac := s.ac &&& s.dr }).complete

/-- T5 of ADD (R76): E the carry out, AC the sum modulo 65536. -/
def t5Add (s : State) : State :=
  ({ s.tick with e := addCarry s.ac s.dr, ac := addWord s.ac s.dr }).complete

/-- T5 of LDA (R77): `AC <- DR`. -/
def t5Lda (s : State) : State := ({ s.tick with ac := s.dr }).complete

/-- T4 of STA (R78): `MemWrite(AR, 1, AC)`, counted. -/
def t4Sta (s : State) : State := (s.tick.write s.ar s.ac).countWrite.complete

/-- T4 of BUN (R79): `PC <- AR`, no memory access. -/
def t4Bun (s : State) : State := ({ s.tick with pc := s.ar }).complete

/-- T4 of BSA (R80): `MemWrite(AR, 1, zext_16(PC))`, not counted (C3), then `PC <- (AR + 1) mod 4096`. -/
def t4Bsa (s : State) : State :=
  ({ s.tick.write s.ar (s.pc.setWidth 16) with pc := nextAddress s.ar }).complete

/-- T5 of ISZ (R81): the incremented word to memory, counted; a skip if it is zero; DR keeps the word read. -/
def t5Isz (s : State) : State :=
  ((s.tick.write s.ar (iszWord s.dr)).countWrite.applyIf (iszSkips s.dr) State.skip).complete

/-! ### The meanings: the microcycles from T3 on -/

/-- AND (R75): T3, T4, T5. -/
def execAnd (addr : Address) (s : State) : Host.Outcome State Fault Refusal :=
  .next (t5And (t4ReadOperand (t3Address addr s)))

/-- ADD (R76): T3, T4, T5. -/
def execAdd (addr : Address) (s : State) : Host.Outcome State Fault Refusal :=
  .next (t5Add (t4ReadOperand (t3Address addr s)))

/-- LDA (R77): T3, T4, T5. -/
def execLda (addr : Address) (s : State) : Host.Outcome State Fault Refusal :=
  .next (t5Lda (t4ReadOperand (t3Address addr s)))

/-- STA (R78): T3, T4. -/
def execSta (addr : Address) (s : State) : Host.Outcome State Fault Refusal :=
  .next (t4Sta (t3Address addr s))

/-- BUN (R79): T3, T4. -/
def execBun (addr : Address) (s : State) : Host.Outcome State Fault Refusal :=
  .next (t4Bun (t3Address addr s))

/-- BSA (R80): T3, T4. -/
def execBsa (addr : Address) (s : State) : Host.Outcome State Fault Refusal :=
  .next (t4Bsa (t3Address addr s))

/-- ISZ (R81): T3, T4, T5. -/
def execIsz (addr : Address) (s : State) : Host.Outcome State Fault Refusal :=
  .next (t5Isz (t4ReadOperand (t3Address addr s)))

end Sys2Proof.Machine
end

