-- ==== Sys2Proof/Machine/RegisterReference.lean ====
section
/-! DEFINITION. The register-reference instructions (R82 to R96): the twelve micro-operations, their composition in
the fixed order, and the meaning of each table row, the one T3 microcycle of its word. -/

namespace Sys2Proof.Machine

/-! ### The micro-operations -/

/-- CLA (R83): `AC <- 0x0000`. -/
def microCla (s : State) : State := { s with ac := 0x0000#16 }

/-- CLE (R84): `E <- 0`. -/
def microCle (s : State) : State := { s with e := false }

/-- CMA (R85): `AC <- ~AC`. -/
def microCma (s : State) : State := { s with ac := ~~~s.ac }

/-- CME (R86): `E <- E xor 1`. -/
def microCme (s : State) : State := { s with e := !s.e }

/-- CIR (R87): AC and E right by one, each from the old value of the other. -/
def microCir (s : State) : State := { s with ac := cirWord s.ac s.e, e := cirCarry s.ac }

/-- CIL (R88): AC and E left by one, each from the old value of the other. -/
def microCil (s : State) : State := { s with ac := cilWord s.ac s.e, e := cilCarry s.ac }

/-- INC (R89): `AC <- (AC + 1) mod 65536`; E is not written. -/
def microInc (s : State) : State := { s with ac := s.ac + 1#16 }

/-- SPA (R90): skip if `AC[15] == 0`. -/
def microSpa (s : State) : State := s.applyIf (acPositive s.ac) State.skip

/-- SNA (R91): skip if `AC[15] == 1`. -/
def microSna (s : State) : State := s.applyIf (acNegative s.ac) State.skip

/-- SZA (R92): skip if `AC == 0`. -/
def microSza (s : State) : State := s.applyIf (acZero s.ac) State.skip

/-- SZE (R93): skip if `E == 0`. -/
def microSze (s : State) : State := s.applyIf (eZero s.e) State.skip

/-- HLT (R94): `HALT <- 1`. -/
def microHlt (s : State) : State := { s with halt := true }

/-! ### Composition -/

/-- `execRRI` (R82): every enabled micro-operation, in the fixed order, each on the state its predecessors left. -/
def execRRI (en : Enables) (s : State) : State :=
  s |> State.applyIf (enabled en .cla) microCla
    |> State.applyIf (enabled en .cle) microCle
    |> State.applyIf (enabled en .cma) microCma
    |> State.applyIf (enabled en .cme) microCme
    |> State.applyIf (enabled en .cir) microCir
    |> State.applyIf (enabled en .cil) microCil
    |> State.applyIf (enabled en .inc) microInc
    |> State.applyIf (enabled en .spa) microSpa
    |> State.applyIf (enabled en .sna) microSna
    |> State.applyIf (enabled en .sza) microSza
    |> State.applyIf (enabled en .sze) microSze
    |> State.applyIf (enabled en .hlt) microHlt

/-- T3 of a register-reference word (R63, R95): the micro-operations, then the end of the instruction. -/
def t3Rri (en : Enables) (s : State) : State := (execRRI en s.tick).complete

/-! ### The meanings -/

/-- CLA (R83, R95). -/
def execCla (s : State) : Host.Outcome State Fault Refusal := .next (microCla s.tick).complete

/-- CLE (R84, R95). -/
def execCle (s : State) : Host.Outcome State Fault Refusal := .next (microCle s.tick).complete

/-- CMA (R85, R95). -/
def execCma (s : State) : Host.Outcome State Fault Refusal := .next (microCma s.tick).complete

/-- CME (R86, R95). -/
def execCme (s : State) : Host.Outcome State Fault Refusal := .next (microCme s.tick).complete

/-- CIR (R87, R95). -/
def execCir (s : State) : Host.Outcome State Fault Refusal := .next (microCir s.tick).complete

/-- CIL (R88, R95). -/
def execCil (s : State) : Host.Outcome State Fault Refusal := .next (microCil s.tick).complete

/-- INC (R89, R95). -/
def execInc (s : State) : Host.Outcome State Fault Refusal := .next (microInc s.tick).complete

/-- SPA (R90, R95). -/
def execSpa (s : State) : Host.Outcome State Fault Refusal := .next (microSpa s.tick).complete

/-- SNA (R91, R95). -/
def execSna (s : State) : Host.Outcome State Fault Refusal := .next (microSna s.tick).complete

/-- SZA (R92, R95). -/
def execSza (s : State) : Host.Outcome State Fault Refusal := .next (microSza s.tick).complete

/-- SZE (R93, R95). -/
def execSze (s : State) : Host.Outcome State Fault Refusal := .next (microSze s.tick).complete

/-- HLT (R94, R95): the instruction completes, and the block is halted. -/
def execHlt (s : State) : Host.Outcome State Fault Refusal := .next (microHlt s.tick).complete

/-- A word with several enable bits (R82, R95). -/
def execRri (en : Enables) (s : State) : Host.Outcome State Fault Refusal := .next (t3Rri en s)

/-- NOP (R49, R96): the instruction completes and does nothing else. -/
def execNop (s : State) : Host.Outcome State Fault Refusal := .next s.tick.complete

end Sys2Proof.Machine
end

