-- ==== Sys2Proof/Machine/Unmapped.lean ====
section
/-! DEFINITION. The words 0x8000 to 0xFFFF (R50, R100). -/

namespace Sys2Proof.Machine

/-- T3 of an unmapped word (R63, R100) under `unmappedOpcodePolicy`, whose one value is `fault` (D4): the cycle counts,
FAULT is set, T stays T3 and the instruction is not counted. -/
def t3Unmapped (policy : Config.UnmappedOpcodePolicy) (s : State) : State :=
  match policy with
  | .fault => s.tick.raiseFault

/-- UNMAPPED (R100). The effect the spec gives the word is this next state, stopped by its FAULT bit; the command's
FAULTED outcome is in Commands.lean. The word itself stands in IR since T1, so the meaning does not write it. -/
def execUnmapped (_word : Word) (s : State) : Host.Outcome State Fault Refusal :=
  .next (t3Unmapped Config.hardware.unmappedOpcodePolicy s)

end Sys2Proof.Machine
end

