-- ==== Sys2Proof/Machine/Dispatch.lean ====
section
/-! DEFINITION. exec: the instruction's microcycles from T3 to its end (R63 to R65), one arm per table row. -/

namespace Sys2Proof.Machine

def exec (i : Instr) (s : State) : Host.Outcome State Fault Refusal :=
  match i with
  -- memory-reference (R74 to R81)
  | .and addr => Sys2Proof.Machine.execAnd addr s
  | .add addr => Sys2Proof.Machine.execAdd addr s
  | .lda addr => Sys2Proof.Machine.execLda addr s
  | .sta addr => Sys2Proof.Machine.execSta addr s
  | .bun addr => Sys2Proof.Machine.execBun addr s
  | .bsa addr => Sys2Proof.Machine.execBsa addr s
  | .isz addr => Sys2Proof.Machine.execIsz addr s
  -- register-reference (R82 to R96)
  | .cla => Sys2Proof.Machine.execCla s
  | .cle => Sys2Proof.Machine.execCle s
  | .cma => Sys2Proof.Machine.execCma s
  | .cme => Sys2Proof.Machine.execCme s
  | .cir => Sys2Proof.Machine.execCir s
  | .cil => Sys2Proof.Machine.execCil s
  | .inc => Sys2Proof.Machine.execInc s
  | .spa => Sys2Proof.Machine.execSpa s
  | .sna => Sys2Proof.Machine.execSna s
  | .sza => Sys2Proof.Machine.execSza s
  | .sze => Sys2Proof.Machine.execSze s
  | .hlt => Sys2Proof.Machine.execHlt s
  | .rri enables => Sys2Proof.Machine.execRri enables s
  | .nop => Sys2Proof.Machine.execNop s
  -- unmapped (R100)
  | .unmapped word => Sys2Proof.Machine.execUnmapped word s

end Sys2Proof.Machine
end

