-- ==== Sys2Proof/Machine/Microcycle.lean ====
section
/-! DEFINITION. The microcycle state machine (R58 to R66): the common microcycles T0, T1 and T2, the dispatch at T3,
T4 and T5, and one microcycle of the block. -/

namespace Sys2Proof.Machine

/-- T0, FETCH_ADDR (R60): `AR <- PC; T <- T1`. -/
def t0FetchAddr (s : State) : State := { s.tick with ar := s.pc, t := .t1 }

/-- T1, FETCH_INSTR (R61): `IR <- MemRead(AR, 1); PC <- (PC + 1) mod 4096; reads += 1; T <- T2`. -/
def t1FetchInstr (s : State) : State :=
  { s.tick.countRead with ir := s.read s.ar, pc := nextAddress s.pc, t := .t2 }

/-- T2, DECODE (R62): only T and the cycle count change. -/
def t2Decode (s : State) : State := { s.tick with t := .t3 }

/-- T3, ADDR_OR_EXEC (R63): dispatch on the category of `decode(IR)`. -/
def t3AddrOrExec (s : State) : State :=
  match descriptor s.ir with
  | .registerRef en => t3Rri en s
  | .memoryRef _ addr => t3Address addr s
  | .unmapped _ => t3Unmapped Config.hardware.unmappedOpcodePolicy s

/-- T4, MEM_ACCESS (R64), reached only for MEMORY_REF (R67). -/
def t4MemAccess (s : State) : Host.Outcome State Fault Refusal :=
  match descriptor s.ir with
  | .memoryRef .sta _ => .next (t4Sta s)
  | .memoryRef .bun _ => .next (t4Bun s)
  | .memoryRef .bsa _ => .next (t4Bsa s)
  | .memoryRef .and _ => .next (t4ReadOperand s)
  | .memoryRef .add _ => .next (t4ReadOperand s)
  | .memoryRef .lda _ => .next (t4ReadOperand s)
  | .memoryRef .isz _ => .next (t4ReadOperand s)
  | .registerRef _ => .fault (.noMicrocycle .t4 s.ir)
  | .unmapped _ => .fault (.noMicrocycle .t4 s.ir)

/-- T5, ALU_COMMIT (R65), reached only for AND, ADD, LDA and ISZ (R67). -/
def t5AluCommit (s : State) : Host.Outcome State Fault Refusal :=
  match descriptor s.ir with
  | .memoryRef .and _ => .next (t5And s)
  | .memoryRef .add _ => .next (t5Add s)
  | .memoryRef .lda _ => .next (t5Lda s)
  | .memoryRef .isz _ => .next (t5Isz s)
  | .memoryRef .sta _ => .fault (.noMicrocycle .t5 s.ir)
  | .memoryRef .bun _ => .fault (.noMicrocycle .t5 s.ir)
  | .memoryRef .bsa _ => .fault (.noMicrocycle .t5 s.ir)
  | .registerRef _ => .fault (.noMicrocycle .t5 s.ir)
  | .unmapped _ => .fault (.noMicrocycle .t5 s.ir)

/-- The guard of every step, in the spec's order (R58, R104): HALT, then FAULT. -/
def stopped (s : State) : Option Fault :=
  if s.halt then some .halted
  else if s.fault then some (.faulted .unmappedOpcode s.ir s.ar)
  else none

/-- One microcycle (R58, R59): the guard, then the transition T selects. At an unmapped word T3 answers the state
with FAULT set (R100). -/
def micro (s : State) : Host.Outcome State Fault Refusal :=
  match stopped s with
  | some f => .fault f
  | none =>
    match s.t with
    | .t0 => .next (t0FetchAddr s)
    | .t1 => .next (t1FetchInstr s)
    | .t2 => .next (t2Decode s)
    | .t3 => .next (t3AddrOrExec s)
    | .t4 => t4MemAccess s
    | .t5 => t5AluCommit s

/-- The microcycles that are left of T0, T1 and T2 (R60 to R62): they bring the block to T3. -/
def fetchDecode (s : State) : State :=
  match s.t with
  | .t0 => t2Decode (t1FetchInstr (t0FetchAddr s))
  | .t1 => t2Decode (t1FetchInstr s)
  | .t2 => t2Decode s
  | .t3 => s
  | .t4 => s
  | .t5 => s

/-- Microcycles to the end of the instruction in flight, at most so many (R70). -/
def finish : Nat → State → Host.Outcome State Fault Refusal
  | 0, s => .next s
  | n + 1, s =>
    match micro s with
    | .next s' => if s'.fault || s'.halt || s'.t == .t0 then .next s' else finish n s'
    | .fault f => .fault f
    | .refused r => .refused r

end Sys2Proof.Machine
end

