-- ==== Sys2Proof/Machine/Step.lean ====
section
/-! DEFINITION. step: one stepInstruction of the block (R70) as the host's interface asks for it, one instruction
from T0, or the rest of the instruction in flight from T1 to T5 (D13). The whole command interface, with stepMicro,
reset, loadImage and read, is in Commands.lean. -/

namespace Sys2Proof.Machine

/-- step under a configuration: with indirect addressing configured the model gives no step (R101). -/
def stepWith (c : Config.Settings) (s : State) : Host.Outcome State Fault Refusal :=
  if c.indirectEnabled then .refused .indirectConfigured
  else
    match stopped s with
    | some f => .fault f
    | none =>
      match s.t with
      | .t0 => exec (decode (fetchDecode s).ir) (fetchDecode s)
      | .t1 => exec (decode (fetchDecode s).ir) (fetchDecode s)
      | .t2 => exec (decode (fetchDecode s).ir) (fetchDecode s)
      | .t3 => exec (decode (fetchDecode s).ir) (fetchDecode s)
      | .t4 => finish 2 s
      | .t5 => finish 1 s

/-- One instruction of this hardware. -/
def step (s : State) : Host.Outcome State Fault Refusal := stepWith Config.hardware s

/-- The state with one instruction word placed where step fetches next, at PC, and ready to fetch: T0, not halted,
not faulted. It stands for the host's loading of a program (R116, R119). -/
def State.withFetchWord (s : State) (nbits w : Nat) : State :=
  { s with
    mem := memWrite s.mem s.pc.toNat (BitVec.ofNat 16 (w % 2 ^ nbits))
    t := .t0
    halt := false
    fault := false }

end Sys2Proof.Machine
end

