-- ==== Sys2Proof/Machine/Assembly.lean ====
section
/-! DEFINITION. The assembler syntax the spec writes programs in (R54, R55): the lines, the word of a line, the line of
a word, and a line's text. It is notation (D15): no step reads it. -/

namespace Sys2Proof.Machine

/-- A line of the syntax (R54). -/
inductive AsmLine where
  /-- `MNEMONIC aaa`. -/
  | mri (m : MriOp) (addr : Address)
  /-- A list of micro-operations. -/
  | micro (ops : List MicroOp)
  /-- `NOP`, the spec's own name for 0x7000 (R55). -/
  | nop
  /-- `.word 0xhhhh`. -/
  | raw (w : Word)
  deriving DecidableEq, Repr

/-- The word of a line (R54): `(op << 12) | aaa`, or 0x7000 OR'd with each listed micro-operation's bit. -/
def assemble : AsmLine → Word
  | .mri m addr => ((mriOpcode m).setWidth 16 <<< 12) ||| addr.setWidth 16
  | .micro ops => ops.foldl (fun w op => w ||| (canonicalBit op).setWidth 16) 0x7000#16
  | .nop => 0x7000#16
  | .raw w => w

/-- The enabled micro-operations of a set, in the fixed order (R48, R54). -/
def enabledOps (en : Enables) : List MicroOp := MicroOp.all.filter (enabled en)

/-- The line of a word (R54). -/
def disassemble (w : Word) : AsmLine :=
  match descriptor w with
  | .registerRef en => if en = 0#12 then .nop else .micro (enabledOps en)
  | .memoryRef m addr => .mri m addr
  | .unmapped _ => .raw w

def MriOp.text : MriOp → String
  | .and => "AND"
  | .add => "ADD"
  | .lda => "LDA"
  | .sta => "STA"
  | .bun => "BUN"
  | .bsa => "BSA"
  | .isz => "ISZ"

def MicroOp.text : MicroOp → String
  | .cla => "CLA"
  | .cle => "CLE"
  | .cma => "CMA"
  | .cme => "CME"
  | .cir => "CIR"
  | .cil => "CIL"
  | .inc => "INC"
  | .spa => "SPA"
  | .sna => "SNA"
  | .sza => "SZA"
  | .sze => "SZE"
  | .hlt => "HLT"

/-- A number in so many hexadecimal digits, letters in capitals as the spec writes words (log 22). -/
def hexText : Nat → Nat → String
  | 0, _ => ""
  | digits + 1, n => hexText digits (n / 16) ++ String.singleton (Nat.digitChar (n % 16)).toUpper

/-- The text of a line (R54). -/
def AsmLine.text : AsmLine → String
  | .mri m addr => MriOp.text m ++ " " ++ hexText 3 addr.toNat
  | .micro ops => " ".intercalate (ops.map MicroOp.text)
  | .nop => "NOP"
  | .raw w => ".word 0x" ++ hexText 4 w.toNat

end Sys2Proof.Machine
end

