-- ==== Sys2Proof/Machine/Commands.lean ====
section
/-! DEFINITION. The command interface of the block (R56): stepMicro, stepInstruction, reset, loadImage and read, each
a whole command with one outcome (R57, R98). -/

namespace Sys2Proof.Machine

/-! ### Observation (R72) -/

/-- The registers of the snapshot (R56, R72). -/
inductive Reg where
  | pc | ar | ir | ac | dr | e
  deriving DecidableEq, Repr

/-- The snapshot's registers, in its order. -/
def Reg.all : List Reg := [.pc, .ar, .ir, .ac, .dr, .e]

/-- The value of a register of the snapshot, as an unsigned number (R5, R6). -/
def State.reg (s : State) : Reg → Nat
  | .pc => s.pc.toNat
  | .ar => s.ar.toNat
  | .ir => s.ir.toNat
  | .ac => s.ac.toNat
  | .dr => s.dr.toNat
  | .e => s.e.toNat

/-- The registers whose value differs (R72, D12), in snapshot order. -/
def changedRegs (s s' : State) : List Reg := Reg.all.filter (fun r => s.reg r != s'.reg r)

/-- The union of two changed sets (R70, D12), in snapshot order. -/
def unionRegs (a b : List Reg) : List Reg := Reg.all.filter (fun r => a.contains r || b.contains r)

/-- The register snapshot (R72). -/
structure Snapshot where
  pc : Address
  ar : Address
  ir : Word
  ac : Word
  dr : Word
  e : Bool
  deriving DecidableEq, Repr

def State.snapshot (s : State) : Snapshot :=
  { pc := s.pc, ar := s.ar, ir := s.ir, ac := s.ac, dr := s.dr, e := s.e }

/-- The outputs available after every command (R56). -/
structure Outputs where
  snapshot : Snapshot
  cnt : Profiler
  halt : Bool
  fault : Bool
  deriving DecidableEq, Repr

/-- The outputs in a state: after a command, those of the state it leaves (R56). -/
def State.outputs (s : State) : Outputs :=
  { snapshot := s.snapshot, cnt := s.cnt, halt := s.halt, fault := s.fault }

/-- What the block reports after each stepMicro, whatever its outcome (R72), beside the changed set. -/
structure Observation where
  outputs : Outputs
  /-- The microcycle performed: T before the step; none where a stop flag let none be performed. -/
  performed : Option MicrocycleState
  /-- `decode(IR)` for T2 to T5, none for T0 and T1 (log 13). -/
  decoded : Option OperationDescriptor
  deriving DecidableEq, Repr

/-- The second half of the pair of R72: no descriptor at T0 and T1. -/
def decodedAt (t : MicrocycleState) (ir : Word) : Option OperationDescriptor :=
  match t with
  | .t0 => none
  | .t1 => none
  | .t2 => some (descriptor ir)
  | .t3 => some (descriptor ir)
  | .t4 => some (descriptor ir)
  | .t5 => some (descriptor ir)

/-- The observation after the microcycle that led from one state to the other, the T3 that sets FAULT included
(R72). -/
def observe (s s' : State) : Observation :=
  { outputs := s'.outputs, performed := some s.t, decoded := decodedAt s.t s.ir }

/-- The observation after a stepMicro that performed no microcycle (R72; log 13). -/
def observeStopped (s : State) : Observation := { outputs := s.outputs, performed := none, decoded := none }

/-- The 3-bit number of a microcycle state, where an encoding is needed (R18, D23). -/
def MicrocycleState.code : MicrocycleState → BitVec 3
  | .t0 => 0#3
  | .t1 => 1#3
  | .t2 => 2#3
  | .t3 => 3#3
  | .t4 => 4#3
  | .t5 => 5#3

/-- The microcycle state of a 3-bit number: the codes 6 and 7 are none (R18, D23). -/
def MicrocycleState.ofCode (c : BitVec 3) : Option MicrocycleState :=
  [MicrocycleState.t0, .t1, .t2, .t3, .t4, .t5][c.toNat]?

/-! ### Images (R116) -/

/-- An image: a finite mapping from integer address to word value. A list that names an address twice is no
mapping; the later entry would win. -/
abbrev Image := List (Int × Int)

/-- Why loadImage drops an entry (R98, R102). -/
inductive EntryError where
  | invalidAddress
  | malformedWord
  deriving DecidableEq, Repr

/-- A dropped entry with its error kind (R56, R116). -/
structure DroppedEntry where
  addr : Int
  word : Int
  error : EntryError
  deriving DecidableEq, Repr

/-- The address is checked before the word (R116, D9). -/
def entryError (e : Int × Int) : Option EntryError :=
  if e.1 < 0 ∨ 4095 < e.1 then some .invalidAddress
  else if e.2 < 0 ∨ 65535 < e.2 then some .malformedWord
  else none

/-- Write one entry, or drop it (R116). -/
def loadEntry (m : Memory) (e : Int × Int) : Memory :=
  match entryError e with
  | none => memWrite m e.1.toNat (BitVec.ofInt 16 e.2)
  | some _ => m

/-- Memory after loadImage: all zero, then the entries (R116, C2). -/
def imageMemory (image : Image) : Memory := image.foldl loadEntry []

/-- The entries dropped, in the image's order (R116). -/
def imageDropped (image : Image) : List DroppedEntry :=
  image.filterMap (fun e => (entryError e).map (fun k => { addr := e.1, word := e.2, error := k }))

/-- The state after loadImage (R116): the image's memory, every other element as after reset. -/
def loadedState (image : Image) : State := { State.reset with mem := imageMemory image }

/-! ### Reads (R25) -/

/-- What the host may read (R25, R56, D12). -/
inductive Query where
  | register (r : Reg)
  | memoryRange (first last : Address)
  | profiler
  | halt
  | fault
  | t
  deriving DecidableEq, Repr

/-- What a read returns. -/
inductive ReadValue where
  | register (r : Reg) (value : Nat)
  | words (ws : List Word)
  | profiler (cnt : Profiler)
  | flag (b : Bool)
  | microcycle (t : MicrocycleState)
  deriving DecidableEq, Repr

/-- The words from the first to the last address, both included; none if the first lies above the last. -/
def readRange (s : State) (first last : Address) : List Word :=
  (List.range (last.toNat + 1 - first.toNat)).map (fun i => memRead s.mem (first.toNat + i))

/-- The value a query reads (R25). -/
def readValue (s : State) : Query → ReadValue
  | .register r => .register r (s.reg r)
  | .memoryRange first last => .words (readRange s first last)
  | .profiler => .profiler s.cnt
  | .halt => .flag s.halt
  | .fault => .flag s.fault
  | .t => .microcycle s.t

/-! ### Commands -/

/-- The commands of the block (R56). -/
inductive Command where
  | stepMicro
  | stepInstruction
  | reset
  | loadImage (image : Image)
  | read (q : Query)
  deriving DecidableEq, Repr

/-- The one outcome of a command (R56, R98). -/
inductive CommandOutcome where
  /-- OK of stepMicro: the changed set and the observation (R72). -/
  | okMicro (changed : List Reg) (obs : Observation)
  /-- OK of stepInstruction: the union of the changed sets and the number of microcycles (R70). -/
  | okInstruction (changed : List Reg) (n : Nat)
  /-- OK of reset. -/
  | okReset
  /-- OK of loadImage: the entries dropped. -/
  | okLoad (dropped : List DroppedEntry)
  /-- OK of read: the value. -/
  | okRead (value : ReadValue)
  /-- HALTED of stepMicro (R99), with what every stepMicro reports (R72). -/
  | haltedMicro (changed : List Reg) (obs : Observation)
  /-- FAULTED of stepMicro (R98, R100), with what every stepMicro reports (R72). -/
  | faultedMicro (reason : FaultReason) (ir : Word) (addr : Address) (changed : List Reg) (obs : Observation)
  /-- HALTED of stepInstruction (R70, R99). -/
  | halted
  /-- FAULTED of stepInstruction, with the changed set and the microcycles performed before and with the fault (R70,
  R98, R100). -/
  | faulted (reason : FaultReason) (ir : Word) (addr : Address) (changed : List Reg) (n : Nat)
  /-- REFUSED(IndirectConfigured) (R101). -/
  | refusedIndirect
  /-- T4 or T5 with a word that has no such microcycle: no run reaches it (R67). The model's own. -/
  | noMicrocycle
  deriving DecidableEq, Repr

/-- The outcome code (R98, D17); the model's own stop has none. -/
def CommandOutcome.code : CommandOutcome → Option Nat
  | .okMicro _ _ => some 0
  | .okInstruction _ _ => some 0
  | .okReset => some 0
  | .okLoad _ => some 0
  | .okRead _ => some 0
  | .haltedMicro _ _ => some 1
  | .faultedMicro _ _ _ _ _ => some 2
  | .halted => some 1
  | .faulted _ _ _ _ _ => some 2
  | .refusedIndirect => some 3
  | .noMicrocycle => none

/-- The code of an entry error (R98, D17). -/
def EntryError.code : EntryError → Nat
  | .invalidAddress => 4
  | .malformedWord => 5

/-- The outcome of a stepMicro that performed no microcycle: no register changed (R58, R72, R99, R100). -/
def stopMicroOutcome (s : State) (f : Fault) : CommandOutcome :=
  match f with
  | .halted => .haltedMicro [] (observeStopped s)
  | .faulted reason ir addr => .faultedMicro reason ir addr [] (observeStopped s)
  | .noMicrocycle _ _ => .noMicrocycle

/-- The outcome of a stepInstruction that performed no microcycle (R70, D13). -/
def stopOutcome (f : Fault) : CommandOutcome :=
  match f with
  | .halted => .halted
  | .faulted reason ir addr => .faulted reason ir addr [] 0
  | .noMicrocycle _ _ => .noMicrocycle

/-- stepMicro (R56, R58, R72, R100). A FAULTED outcome reports an empty changed set, as R72 says, and T3 of an unmapped
word changes no register of the snapshot (R100). -/
def stepMicro (s : State) : CommandOutcome × State :=
  match micro s with
  | .next s' =>
    if s'.fault then (.faultedMicro .unmappedOpcode s'.ir s'.ar [] (observe s s'), s')
    else (.okMicro (changedRegs s s') (observe s s'), s')
  | .fault f => (stopMicroOutcome s f, s)
  | .refused _ => (.refusedIndirect, s)

/-- The loop of stepInstruction (R70), with the changed set and the count so far, at most so many microcycles. Its
FAULTED carries the union so far and the count, R70's "partial progress", as the vectors S11 and P5 of
95_test_vectors.md show; how D12's "empty on HALTED or FAULTED" reads beside them is log 23. -/
def stepLoop : Nat → State → List Reg → Nat → CommandOutcome × State
  | 0, s, changed, n => (.okInstruction changed n, s)
  | k + 1, s, changed, n =>
    match micro s with
    | .next s' =>
      if s'.fault then (.faulted .unmappedOpcode s'.ir s'.ar changed (n + 1), s')
      else if s'.halt || s'.t == .t0 then (.okInstruction (unionRegs changed (changedRegs s s')) (n + 1), s')
      else stepLoop k s' (unionRegs changed (changedRegs s s')) (n + 1)
    | .fault f => (stopOutcome f, s)
    | .refused _ => (.refusedIndirect, s)

/-- stepInstruction (R70): the guard, then the loop, which makes at most 6 iterations (R67). -/
def stepInstruction (s : State) : CommandOutcome × State :=
  match stopped s with
  | some f => (stopOutcome f, s)
  | none => stepLoop 6 s [] 0

/-- One whole command under a configuration (R56, R57). With indirect addressing configured the model is refused as a
whole (R51, R101). -/
def runCommandWith (c : Config.Settings) (cmd : Command) (s : State) : CommandOutcome × State :=
  if c.indirectEnabled then (.refusedIndirect, s)
  else
    match cmd with
    | .stepMicro => stepMicro s
    | .stepInstruction => stepInstruction s
    | .reset => (.okReset, State.reset)
    | .loadImage image => (.okLoad (imageDropped image), loadedState image)
    | .read q => (.okRead (readValue s q), s)

/-- One whole command of this hardware. -/
def runCommand (cmd : Command) (s : State) : CommandOutcome × State := runCommandWith Config.hardware cmd s

/-- A sequence of whole commands: the only use of the block that has a meaning (R57, D19). -/
def runCommands : List Command → State → List CommandOutcome × State
  | [], s => ([], s)
  | cmd :: rest, s =>
    let r := runCommand cmd s
    let q := runCommands rest r.2
    (r.1 :: q.1, q.2)

end Sys2Proof.Machine
end

