-- ==== Sys2Proof/Safety.lean ====
section
/-! DEFINITION. The terms claims are stated in: which states the block can be in (R21, R67, R69), what the counters
say of each other (R125), when a run is safe and when it has ended well. -/

namespace Sys2Proof.Machine

/-- Neither stop flag is set, so a step performs a microcycle (R58). -/
def Running (s : State) : Prop := s.halt = false ∧ s.fault = false

/-- AND, ADD, LDA and ISZ read their operand at T4 and go on to T5 (R64, R67). -/
def readsOperand : MriOp → Bool
  | .and => true
  | .add => true
  | .lda => true
  | .isz => true
  | .sta => false
  | .bun => false
  | .bsa => false

/-- The store a microcycle makes, its address and its value: T4 of STA and of BSA, T5 of ISZ, no other (R29). -/
def microStore (s : State) : Option (Address × Word) :=
  match s.t, descriptor s.ir with
  | .t4, .memoryRef .sta _ => some (s.ar, s.ac)
  | .t4, .memoryRef .bsa _ => some (s.ar, s.pc.setWidth 16)
  | .t5, .memoryRef .isz _ => some (s.ar, iszWord s.dr)
  | _, _ => none

/-- The state so many stepMicro commands leave (R58). -/
def afterMicros (k : Nat) (s : State) : State := (runCommands (List.replicate k .stepMicro) s).2

/-- What T says about the registers between two microcycles (R11, R12, R67, R123). -/
def PhaseConsistent (s : State) : Prop :=
  match s.t with
  | .t0 => True
  | .t1 => s.ar = s.pc
  | .t2 => s.pc = nextAddress s.ar ∧ s.ir = s.read s.ar
  | .t3 => s.pc = nextAddress s.ar ∧ s.ir = s.read s.ar
  | .t4 => ∃ m, descriptor s.ir = .memoryRef m s.ar
  | .t5 => ∃ m, descriptor s.ir = .memoryRef m s.ar ∧ readsOperand m = true ∧ s.dr = s.read s.ar

/-- The invariant of the block between microcycles. The widths of R21 hold by the types. -/
structure State.Inv (s : State) : Prop where
  /-- The memory list is in canonical form. -/
  memWf : s.mem.wf = true
  /-- HALT and FAULT are never both 1 (R21). -/
  notBoth : ¬(s.halt = true ∧ s.fault = true)
  /-- A halted block shows T0 (R69), and the word in IR enables HLT (R16). -/
  halted : s.halt = true → s.t = .t0 ∧ ∃ en, descriptor s.ir = .registerRef en ∧ enabled en .hlt = true
  /-- A faulted block shows T3, with an unmapped word in IR (R17, R100). -/
  faulted : s.fault = true → s.t = .t3 ∧ ∃ top, descriptor s.ir = .unmapped top
  /-- T and the registers agree. -/
  phase : PhaseConsistent s

/-- How many microcycles of the instruction in flight have been performed; the fault's own T3 counts (R59). -/
def cyclesInFlight (s : State) : Nat :=
  (match s.t with
    | .t0 => 0
    | .t1 => 1
    | .t2 => 2
    | .t3 => 3
    | .t4 => 4
    | .t5 => 5) + (if s.fault then 1 else 0)

/-- How many counted reads the instruction in flight has made (R20, R29). -/
def readsInFlight (s : State) : Nat :=
  match s.t with
  | .t0 => 0
  | .t1 => 0
  | .t2 => 1
  | .t3 => 1
  | .t4 => 1
  | .t5 => 2

/-- What the per-instruction increments of R125 make of the four counters, the instruction in flight included. -/
structure State.ProfilerConsistent (s : State) : Prop where
  /-- Every completed instruction took 4, 5 or 6 microcycles. -/
  cyclesLow : 4 * s.cnt.instructions + cyclesInFlight s ≤ s.cnt.cycles
  cyclesHigh : s.cnt.cycles ≤ 6 * s.cnt.instructions + cyclesInFlight s
  /-- Every completed instruction made 1 or 2 counted reads. -/
  readsLow : s.cnt.instructions + readsInFlight s ≤ s.cnt.reads
  readsHigh : s.cnt.reads ≤ 2 * s.cnt.instructions + readsInFlight s
  /-- Every completed instruction made at most one counted write. -/
  writesHigh : s.cnt.writes ≤ s.cnt.instructions
  /-- An instruction with a second read took 6 microcycles. -/
  secondReads : 2 * s.cnt.reads + 2 * s.cnt.instructions + cyclesInFlight s ≤ s.cnt.cycles + 2 * readsInFlight s
  /-- An instruction with a counted write took more than 4 microcycles, and ISZ, with a second read as well, 6. -/
  countedWrites :
    s.cnt.writes + s.cnt.reads + 3 * s.cnt.instructions + cyclesInFlight s ≤ s.cnt.cycles + readsInFlight s

/-- No counter has reached the width of the build's counters. A claim about a build's counter values carries this
premise (D11): past it the source says nothing, and the model's unbounded counters are not the build's. -/
def CountersFit (s : State) : Prop :=
  s.cnt.cycles < 2 ^ Config.counterWidth ∧ s.cnt.instructions < 2 ^ Config.counterWidth ∧
    s.cnt.reads < 2 ^ Config.counterWidth ∧ s.cnt.writes < 2 ^ Config.counterWidth

/-- A run of so many instructions is safe: none stopped it, and no unmapped word was met. A state with FAULT set is
never a successful end (R100). -/
def SafeRun (k : Nat) (s : State) : Prop := ∃ s', Sys2Proof.core.run k s = .next s' ∧ s'.fault = false

/-- The successful end of a program, the only externally visible completion (R56, R119). -/
def Completed (s : State) : Prop := s.halt = true ∧ s.fault = false

end Sys2Proof.Machine
end

