-- ==== Sys2Proof/Certificates/Slice0/Obligations.lean ====
section
/-! DEFINITION. The statements for the provers. Each docstring names the rules of spec/ it formalises. -/

open Sys2Proof Sys2Proof.Machine

/-! ### Encoding -/

/-- Every well-formed instruction is what its encoded word decodes to, every operand at every value (R44, R46, R48,
R49, R50, R52). -/
def Obligations.DecodeOfEncodeIsIdentity : Prop :=
  ∀ i : Instr, i.wellFormed = true → decode (encode i) = i

/-- Every 16-bit word decodes to a well-formed instruction, and that instruction's word is the word (R43, R49, R50,
R52). -/
def Obligations.EncodeOfDecodeIsIdentity : Prop :=
  ∀ w : Word, (decode w).wellFormed = true ∧ encode (decode w) = w

/-- R48: the twelve enable bits are independent, bit `11 - k` enables the k-th micro-operation of the list, and the
canonical words are those of its table. The positions other than HLT's are the spec's decision D3 (log 6). -/
def Obligations.EnableBitsAndCanonicalWords : Prop :=
  (∀ en : Enables, descriptor (0x7#4 ++ en) = .registerRef en) ∧
  MicroOp.all = [.cla, .cle, .cma, .cme, .cir, .cil, .inc, .spa, .sna, .sza, .sze, .hlt] ∧
  (∀ (k : Nat) (op : MicroOp), MicroOp.all[k]? = some op → ∀ en : Enables, enabled en op = en.getLsbD (11 - k)) ∧
  decode 0x7800#16 = .cla ∧ decode 0x7400#16 = .cle ∧ decode 0x7200#16 = .cma ∧ decode 0x7100#16 = .cme ∧
  decode 0x7080#16 = .cir ∧ decode 0x7040#16 = .cil ∧ decode 0x7020#16 = .inc ∧ decode 0x7010#16 = .spa ∧
  decode 0x7008#16 = .sna ∧ decode 0x7004#16 = .sza ∧ decode 0x7002#16 = .sze ∧ decode 0x7001#16 = .hlt

/-- R45, R52: `opcodeTop` alone selects the category, by the full map of the sixteen opcodes. The category of 0x8 to
0xF is the spec's decision D4 (log 7). -/
def Obligations.OpcodeTopSelectsTheCategory : Prop :=
  ∀ low : BitVec 12,
    descriptor (0x0#4 ++ low) = .memoryRef .and low ∧ descriptor (0x1#4 ++ low) = .memoryRef .add low ∧
    descriptor (0x2#4 ++ low) = .memoryRef .lda low ∧ descriptor (0x3#4 ++ low) = .memoryRef .sta low ∧
    descriptor (0x4#4 ++ low) = .memoryRef .bun low ∧ descriptor (0x5#4 ++ low) = .memoryRef .bsa low ∧
    descriptor (0x6#4 ++ low) = .memoryRef .isz low ∧ descriptor (0x7#4 ++ low) = .registerRef low ∧
    ∀ top : BitVec 4, 8 ≤ top.toNat → descriptor (top ++ low) = .unmapped top

/-- A few words written out from the encodings, one or more per family (R46, R48, R50). The canonical and
combination words rest on the spec's decision D3 (log 6), the unmapped one on D4 (log 7). -/
def Obligations.SampleWordsDecode : Prop :=
  decode 0x2005#16 = .lda 0x005#12 ∧ decode 0x4005#16 = .bun 0x005#12 ∧ decode 0x0010#16 = .and 0x010#12 ∧
  decode 0x1ABC#16 = .add 0xABC#12 ∧ decode 0x3020#16 = .sta 0x020#12 ∧ decode 0x5100#16 = .bsa 0x100#12 ∧
  decode 0x6FFF#16 = .isz 0xFFF#12 ∧ decode 0x7001#16 = .hlt ∧ decode 0x7000#16 = .nop ∧
  decode 0x7220#16 = .rri 0x220#12 ∧ decode 0x7FFF#16 = .rri 0xFFF#12 ∧ decode 0x9001#16 = .unmapped 0x9001#16

/-- R54: the word of each line of the assembler syntax, and every word has a line that assembles to it. The syntax
is the spec's decision D15, and the enable bits its decision D3 (log 6, log 22). R54 writes a list in the fixed
order of R48; that a list in any order, with repeats or empty, is a line too, and what it assembles to, is the
model's choice (log 22). -/
def Obligations.AssemblerLinesAndWords : Prop :=
  (∀ (m : MriOp) (a : Address), (assemble (.mri m a)).toNat = 4096 * (mriOpcode m).toNat + a.toNat) ∧
  (∀ ops : List MicroOp, opcodeTop (assemble (.micro ops)) = 0x7#4 ∧
    ∀ op : MicroOp, enabled (low12 (assemble (.micro ops))) op = true ↔ op ∈ ops) ∧
  assemble .nop = 0x7000#16 ∧ (∀ w : Word, assemble (.raw w) = w) ∧
  assemble (.mri .lda 0x005#12) = 0x2005#16 ∧ assemble (.micro [.cma, .inc]) = 0x7220#16 ∧
  ∀ w : Word, assemble (disassemble w) = w

/-! ### The microcycle state machine -/

/-- R60, R61, R62: the effect of T0, T1 and T2, each counting one cycle (R59), and nothing else. -/
def Obligations.CommonMicrocyclesFetchAndDecode : Prop :=
  ∀ s : State, Running s →
    (s.t = .t0 → micro s =
      .next { s with ar := s.pc, t := .t1, cnt := { s.cnt with cycles := s.cnt.cycles + 1 } }) ∧
    (s.t = .t1 → micro s =
      .next { s with
        ir := s.read s.ar, pc := s.pc + 1#12, t := .t2
        cnt := { s.cnt with cycles := s.cnt.cycles + 1, reads := s.cnt.reads + 1 } }) ∧
    (s.t = .t2 → micro s =
      .next { s with t := .t3, cnt := { s.cnt with cycles := s.cnt.cycles + 1 } })

/-- R58, R99: a step while HALT = 1 ends HALTED and changes nothing; reads still succeed; reset and loadImage leave
the halted state. The clause about stepMicro fixes its whole report: the empty changed set is R72's, that it names
no microcycle and no descriptor is the model's choice (log 13). That HALTED is a fault of step is the model's choice
(log 5). -/
def Obligations.HaltedStepsChangeNothing : Prop :=
  ∀ s : State, s.halt = true →
    micro s = .fault .halted ∧ step s = .fault .halted ∧
    runCommand .stepMicro s = (.haltedMicro [] (observeStopped s), s) ∧
    runCommand .stepInstruction s = (.halted, s) ∧
    (∀ q : Query, runCommand (.read q) s = (.okRead (readValue s q), s)) ∧
    (runCommand .reset s).2.halt = false ∧ ∀ image : Image, (runCommand (.loadImage image) s).2.halt = false

/-- R100: T3 with an unmapped word sets FAULT, counts the cycle and does nothing else; the outcome is FAULTED with
IR and AR; every later step ends FAULTED with no change; reset and loadImage clear FAULT. The fault is the spec's
decision D4 (log 7); that exec answers a next state for it is log 4. While FAULT = 1, that stepMicro's report names
no microcycle and no descriptor is the model's choice (log 13), and that the repeated FAULTED carries IR, AR, an
empty changed set and n = 0 is the model's inference (log 21). That the repeated FAULTED is a fault of step is the
model's choice (log 5). -/
def Obligations.UnmappedWordFaults : Prop :=
  (∀ (w : Word) (s : State), exec (.unmapped w) s =
    .next { s with fault := true, cnt := { s.cnt with cycles := s.cnt.cycles + 1 } }) ∧
  (∀ s : State, Running s → s.t = .t3 → 8 ≤ (s.ir.extractLsb' 12 4).toNat →
    runCommand .stepMicro s =
      (.faultedMicro .unmappedOpcode s.ir s.ar []
          (observe s { s with fault := true, cnt := { s.cnt with cycles := s.cnt.cycles + 1 } }),
        { s with fault := true, cnt := { s.cnt with cycles := s.cnt.cycles + 1 } })) ∧
  (∀ s : State, s.halt = false → s.fault = true →
    step s = .fault (.faulted .unmappedOpcode s.ir s.ar) ∧
    runCommand .stepMicro s = (.faultedMicro .unmappedOpcode s.ir s.ar [] (observeStopped s), s) ∧
    runCommand .stepInstruction s = (.faulted .unmappedOpcode s.ir s.ar [] 0, s) ∧
    (runCommand .reset s).2.fault = false ∧ ∀ image : Image, (runCommand (.loadImage image) s).2.fault = false)

/-- A step from T0 fetches the word at PC and runs exec of the instruction it decodes to, on the state T0, T1 and T2
leave (R60 to R63, R70). That the host's step is one stepInstruction is the model's choice (log 2). That exec is an
instruction from T3 on is the model's choice as well (log 19). -/
def Obligations.StepRunsTheDecodedInstruction : Prop :=
  ∀ s : State, Running s → s.t = .t0 →
    step s = exec (decode (s.read s.pc))
      { s with
        ar := s.pc, ir := s.read s.pc, pc := s.pc + 1#12, t := .t3
        cnt := { s.cnt with cycles := s.cnt.cycles + 3, reads := s.cnt.reads + 1 } }

/-- The model's own interface (log 3): a word placed by withFetchWord is what the very next step fetches and runs. -/
def Obligations.PlacedWordRunsNext : Prop :=
  ∀ (s : State) (w : Nat), s.mem.wf = true → w < 2 ^ 16 →
    step (s.withFetchWord 16 w) = exec (decode (BitVec.ofNat 16 w))
      { s with
        ar := s.pc, ir := BitVec.ofNat 16 w, pc := s.pc + 1#12, t := .t3, halt := false, fault := false
        mem := memWrite s.mem s.pc.toNat (BitVec.ofNat 16 w)
        cnt := { s.cnt with cycles := s.cnt.cycles + 3, reads := s.cnt.reads + 1 } }

/-- R63: T3 dispatches on the category of `decode(IR)`. The unmapped arm is the spec's decision D4 (log 7). -/
def Obligations.AddressOrExecDispatches : Prop :=
  ∀ s : State, Running s → s.t = .t3 →
    (∀ en : Enables, descriptor s.ir = .registerRef en → micro s = .next (execRRI en s.tick).complete) ∧
    (∀ (m : MriOp) (a : Address), descriptor s.ir = .memoryRef m a → micro s =
      .next { s with ar := a, t := .t4, cnt := { s.cnt with cycles := s.cnt.cycles + 1 } }) ∧
    (∀ top : BitVec 4, descriptor s.ir = .unmapped top → micro s =
      .next { s with fault := true, cnt := { s.cnt with cycles := s.cnt.cycles + 1 } })

/-- R70: the host's step is the block's stepInstruction, in every state: the same state after it, OK or the first
FAULTED where it answers a next state, and a step that stops changes nothing. That the host's step is one
stepInstruction is the model's choice (log 2, log 4); its use from T1 to T5 is the spec's decision D13. What a
repeated FAULTED carries is log 21, the stop at T4 or T5 with a word that has no such microcycle log 11, that stops
are faults of step log 5. -/
def Obligations.StepIsStepInstruction : Prop :=
  ∀ s : State,
    match step s with
    | .next s' =>
      (stepInstruction s).2 = s' ∧
        ((s'.fault = false ∧ ∃ changed n, (stepInstruction s).1 = .okInstruction changed n) ∨
          (s'.fault = true ∧ ∃ changed n, (stepInstruction s).1 = .faulted .unmappedOpcode s'.ir s'.ar changed n))
    | .fault f => stepInstruction s = (stopOutcome f, s)
    | .refused _ => False

/-- R111: a run by stepMicro and a run by stepInstruction reach the same states at instruction boundaries: every
stepInstruction that performs microcycles leaves the state that 1 to 6 stepMicro commands leave, at T0 or faulted,
and no smaller number of them but 0 reaches T0 or a stop. The use of stepInstruction from T1 to T5 is the spec's
decision D13. -/
def Obligations.StepInstructionIsStepMicroRepeated : Prop :=
  ∀ s : State, s.Inv → Running s →
    ∃ n, 1 ≤ n ∧ n ≤ 6 ∧
      afterMicros n s = (runCommand .stepInstruction s).2 ∧
      ((runCommand .stepInstruction s).2.t = .t0 ∨ (runCommand .stepInstruction s).2.fault = true) ∧
      ∀ k, 1 ≤ k → k < n →
        (afterMicros k s).t ≠ .t0 ∧ Running (afterMicros k s)

/-- R67, R68, R124, R125: microcycles and counter increments of one stepInstruction from T0, by the word fetched.
The unmapped row is the spec's decision D4 (log 7). -/
def Obligations.MicrocyclesAndCountersPerInstruction : Prop :=
  ∀ s : State, Running s → s.t = .t0 →
    match descriptor (s.read s.pc) with
    | .registerRef _ => ∃ changed, (stepInstruction s).1 = .okInstruction changed 4 ∧ (stepInstruction s).2.t = .t0 ∧
        (stepInstruction s).2.cnt = ⟨s.cnt.cycles + 4, s.cnt.instructions + 1, s.cnt.reads + 1, s.cnt.writes⟩
    | .memoryRef .and _ => ∃ changed, (stepInstruction s).1 = .okInstruction changed 6 ∧ (stepInstruction s).2.t = .t0 ∧
        (stepInstruction s).2.cnt = ⟨s.cnt.cycles + 6, s.cnt.instructions + 1, s.cnt.reads + 2, s.cnt.writes⟩
    | .memoryRef .add _ => ∃ changed, (stepInstruction s).1 = .okInstruction changed 6 ∧ (stepInstruction s).2.t = .t0 ∧
        (stepInstruction s).2.cnt = ⟨s.cnt.cycles + 6, s.cnt.instructions + 1, s.cnt.reads + 2, s.cnt.writes⟩
    | .memoryRef .lda _ => ∃ changed, (stepInstruction s).1 = .okInstruction changed 6 ∧ (stepInstruction s).2.t = .t0 ∧
        (stepInstruction s).2.cnt = ⟨s.cnt.cycles + 6, s.cnt.instructions + 1, s.cnt.reads + 2, s.cnt.writes⟩
    | .memoryRef .isz _ => ∃ changed, (stepInstruction s).1 = .okInstruction changed 6 ∧ (stepInstruction s).2.t = .t0 ∧
        (stepInstruction s).2.cnt = ⟨s.cnt.cycles + 6, s.cnt.instructions + 1, s.cnt.reads + 2, s.cnt.writes + 1⟩
    | .memoryRef .sta _ => ∃ changed, (stepInstruction s).1 = .okInstruction changed 5 ∧ (stepInstruction s).2.t = .t0 ∧
        (stepInstruction s).2.cnt = ⟨s.cnt.cycles + 5, s.cnt.instructions + 1, s.cnt.reads + 1, s.cnt.writes + 1⟩
    | .memoryRef .bun _ => ∃ changed, (stepInstruction s).1 = .okInstruction changed 5 ∧ (stepInstruction s).2.t = .t0 ∧
        (stepInstruction s).2.cnt = ⟨s.cnt.cycles + 5, s.cnt.instructions + 1, s.cnt.reads + 1, s.cnt.writes⟩
    | .memoryRef .bsa _ => ∃ changed, (stepInstruction s).1 = .okInstruction changed 5 ∧ (stepInstruction s).2.t = .t0 ∧
        (stepInstruction s).2.cnt = ⟨s.cnt.cycles + 5, s.cnt.instructions + 1, s.cnt.reads + 1, s.cnt.writes⟩
    | .unmapped _ => ∃ changed, (stepInstruction s).1 = .faulted .unmappedOpcode (s.read s.pc) s.pc changed 4 ∧
        (stepInstruction s).2.t = .t3 ∧
        (stepInstruction s).2.cnt = ⟨s.cnt.cycles + 4, s.cnt.instructions, s.cnt.reads + 1, s.cnt.writes⟩

/-! ### Memory-reference instructions -/

/-- R75, AND: encoding, the T4 and T5 microcycles, and the whole effect from T3 on; E and all else unchanged; an
all-zero memory executes AND 000 from every address in turn, wrapping. -/
def Obligations.AndMasksTheAccumulator : Prop :=
  (∀ addr : Address, decode (0x0#4 ++ addr) = .and addr) ∧
  (∀ (s : State) (a : Address), Running s → descriptor s.ir = .memoryRef .and a →
    (s.t = .t4 → micro s = .next { s with
      dr := s.read s.ar, t := .t5
      cnt := { s.cnt with cycles := s.cnt.cycles + 1, reads := s.cnt.reads + 1 } }) ∧
    (s.t = .t5 → micro s = .next { s with
      ac := s.ac &&& s.dr, t := .t0
      cnt := { s.cnt with cycles := s.cnt.cycles + 1, instructions := s.cnt.instructions + 1 } })) ∧
  (∀ (addr : Address) (s : State), exec (.and addr) s = .next { s with
    ar := addr, dr := s.read addr, ac := s.ac &&& s.read addr, t := .t0
    cnt := { s.cnt with
      cycles := s.cnt.cycles + 3, instructions := s.cnt.instructions + 1, reads := s.cnt.reads + 1 } }) ∧
  (∀ s : State, Running s → s.t = .t0 → (∀ a : Address, s.read a = 0x0000#16) →
    ∀ k : Nat, ∃ s', Sys2Proof.core.run k s = .next s' ∧ s'.pc = s.pc + BitVec.ofNat 12 k ∧ s'.halt = false ∧
      s'.fault = false ∧ decode (s'.read s'.pc) = .and 0x000#12)

/-- R76, ADD: the exact sum modulo 65536 to AC and its carry out to E, the old E not added. -/
def Obligations.AddSumsWithCarryOut : Prop :=
  (∀ addr : Address, decode (0x1#4 ++ addr) = .add addr) ∧
  (∀ (s : State) (a : Address), Running s → descriptor s.ir = .memoryRef .add a →
    (s.t = .t4 → micro s = .next { s with
      dr := s.read s.ar, t := .t5
      cnt := { s.cnt with cycles := s.cnt.cycles + 1, reads := s.cnt.reads + 1 } }) ∧
    (s.t = .t5 → ∃ sum : Word, sum.toNat = (s.ac.toNat + s.dr.toNat) % 65536 ∧ micro s = .next { s with
      ac := sum, e := decide (65535 < s.ac.toNat + s.dr.toNat), t := .t0
      cnt := { s.cnt with cycles := s.cnt.cycles + 1, instructions := s.cnt.instructions + 1 } })) ∧
  (∀ (addr : Address) (s : State), exec (.add addr) s = .next { s with
    ar := addr, dr := s.read addr, ac := s.ac + s.read addr
    e := decide (65535 < s.ac.toNat + (s.read addr).toNat), t := .t0
    cnt := { s.cnt with
      cycles := s.cnt.cycles + 3, instructions := s.cnt.instructions + 1, reads := s.cnt.reads + 1 } })

/-- R77, LDA: the memory word to AC, whole. -/
def Obligations.LdaLoadsTheAccumulator : Prop :=
  (∀ addr : Address, decode (0x2#4 ++ addr) = .lda addr) ∧
  (∀ (s : State) (a : Address), Running s → descriptor s.ir = .memoryRef .lda a →
    (s.t = .t4 → micro s = .next { s with
      dr := s.read s.ar, t := .t5
      cnt := { s.cnt with cycles := s.cnt.cycles + 1, reads := s.cnt.reads + 1 } }) ∧
    (s.t = .t5 → micro s = .next { s with
      ac := s.dr, t := .t0
      cnt := { s.cnt with cycles := s.cnt.cycles + 1, instructions := s.cnt.instructions + 1 } })) ∧
  (∀ (addr : Address) (s : State), exec (.lda addr) s = .next { s with
    ar := addr, dr := s.read addr, ac := s.read addr, t := .t0
    cnt := { s.cnt with
      cycles := s.cnt.cycles + 3, instructions := s.cnt.instructions + 1, reads := s.cnt.reads + 1 } })

/-- R78, STA: AC to memory, counted; every other word reads as before. -/
def Obligations.StaStoresTheAccumulator : Prop :=
  (∀ addr : Address, decode (0x3#4 ++ addr) = .sta addr) ∧
  (∀ (s : State) (a : Address), Running s → descriptor s.ir = .memoryRef .sta a → s.t = .t4 →
    micro s = .next { s with
      mem := memWrite s.mem s.ar.toNat s.ac, t := .t0
      cnt := { s.cnt with
        cycles := s.cnt.cycles + 1, instructions := s.cnt.instructions + 1, writes := s.cnt.writes + 1 } }) ∧
  (∀ (addr : Address) (s : State), ∃ s', exec (.sta addr) s = .next s' ∧
    s' = { s with
      ar := addr, mem := memWrite s.mem addr.toNat s.ac, t := .t0
      cnt := { s.cnt with
        cycles := s.cnt.cycles + 2, instructions := s.cnt.instructions + 1, writes := s.cnt.writes + 1 } } ∧
    (s.mem.wf = true → s'.read addr = s.ac) ∧ ∀ b : Address, b ≠ addr → s'.read b = s.read b)

/-- R79, BUN: PC takes the address, with no memory access at T4. -/
def Obligations.BunBranches : Prop :=
  (∀ addr : Address, decode (0x4#4 ++ addr) = .bun addr) ∧
  (∀ (s : State) (a : Address), Running s → descriptor s.ir = .memoryRef .bun a → s.t = .t4 →
    micro s = .next { s with
      pc := s.ar, t := .t0
      cnt := { s.cnt with cycles := s.cnt.cycles + 1, instructions := s.cnt.instructions + 1 } }) ∧
  (∀ (addr : Address) (s : State), exec (.bun addr) s = .next { s with
    ar := addr, pc := addr, t := .t0
    cnt := { s.cnt with cycles := s.cnt.cycles + 2, instructions := s.cnt.instructions + 1 } }) ∧
  (∀ s : State, Running s → s.t = .t0 → s.read s.pc = 0x4#4 ++ s.pc →
    ∀ k : Nat, ∃ s', Sys2Proof.core.run k s = .next s' ∧ s'.pc = s.pc ∧ s'.halt = false ∧ s'.fault = false ∧
      s'.cnt.cycles = s.cnt.cycles + 5 * k)

/-- R80, BSA: the return address, zero-extended, to memory, not counted; PC to the word after it; the stored word
decodes as AND of the return address; every other word reads as before. -/
def Obligations.BsaSavesTheReturnAddress : Prop :=
  (∀ addr : Address, decode (0x5#4 ++ addr) = .bsa addr) ∧
  (∀ (s : State) (a : Address), Running s → descriptor s.ir = .memoryRef .bsa a → s.t = .t4 →
    micro s = .next { s with
      mem := memWrite s.mem s.ar.toNat (0x0#4 ++ s.pc), pc := s.ar + 1#12, t := .t0
      cnt := { s.cnt with cycles := s.cnt.cycles + 1, instructions := s.cnt.instructions + 1 } }) ∧
  (∀ (addr : Address) (s : State), ∃ s', exec (.bsa addr) s = .next s' ∧
    s' = { s with
      ar := addr, mem := memWrite s.mem addr.toNat (0x0#4 ++ s.pc), pc := addr + 1#12, t := .t0
      cnt := { s.cnt with cycles := s.cnt.cycles + 2, instructions := s.cnt.instructions + 1 } } ∧
    (s.mem.wf = true → (s'.read addr).toNat = s.pc.toNat ∧ decode (s'.read addr) = .and s.pc) ∧
    ∀ b : Address, b ≠ addr → s'.read b = s.read b)

/-- R81, ISZ: the word plus one to memory, counted; a skip exactly when it wraps to zero; DR keeps the word read; AC
and E unchanged; every other word reads as before. -/
def Obligations.IszIncrementsAndSkipsOnZero : Prop :=
  (∀ addr : Address, decode (0x6#4 ++ addr) = .isz addr) ∧
  (∀ (s : State) (a : Address), Running s → descriptor s.ir = .memoryRef .isz a →
    (s.t = .t4 → micro s = .next { s with
      dr := s.read s.ar, t := .t5
      cnt := { s.cnt with cycles := s.cnt.cycles + 1, reads := s.cnt.reads + 1 } }) ∧
    (s.t = .t5 → micro s = .next { s with
      mem := memWrite s.mem s.ar.toNat (s.dr + 1#16), t := .t0
      pc := if s.dr = 0xFFFF#16 then s.pc + 1#12 else s.pc
      cnt := { s.cnt with
        cycles := s.cnt.cycles + 1, instructions := s.cnt.instructions + 1, writes := s.cnt.writes + 1 } })) ∧
  (∀ (addr : Address) (s : State), ∃ s', exec (.isz addr) s = .next s' ∧
    s' = { s with
      ar := addr, dr := s.read addr, mem := memWrite s.mem addr.toNat (s.read addr + 1#16), t := .t0
      pc := if s.read addr = 0xFFFF#16 then s.pc + 1#12 else s.pc
      cnt := ⟨s.cnt.cycles + 3, s.cnt.instructions + 1, s.cnt.reads + 1, s.cnt.writes + 1⟩ } ∧
    (s.mem.wf = true → (s'.read addr).toNat = ((s.read addr).toNat + 1) % 65536) ∧
    ∀ b : Address, b ≠ addr → s'.read b = s.read b)

/-- R40, R122: a word that STA, BSA or ISZ stores is what the next fetch of its address loads, whatever microcycles
that do not store there lie between, and the store leaves the instruction in flight alone. By whole steps: a STA or an
ISZ of the next address changes the instruction run next; a STA, a BSA or an ISZ of its own address completes as
fetched, and memory there holds the stored word. -/
def Obligations.StoredWordIsFetchedNext : Prop :=
  (∀ (s s' : State) (b : Address) (v : Word), s.mem.wf = true → micro s = .next s' → microStore s = some (b, v) →
    s'.ir = s.ir ∧ s'.read b = v ∧
    ∀ (run : Nat → State) (n : Nat), run 0 = s' →
      (∀ i, i < n → micro (run i) = .next (run (i + 1)) ∧ ∀ w, microStore (run i) ≠ some (b, w)) →
      Running (run n) → (run n).t = .t1 → (run n).ar = b → ∃ s'', micro (run n) = .next s'' ∧ s''.ir = v) ∧
  (∀ (s : State), s.mem.wf = true → Running s → s.t = .t0 →
    (s.read s.pc = 0x3#4 ++ (s.pc + 1#12) → ∃ s', step s = .next s' ∧ s'.pc = s.pc + 1#12 ∧
      step s' = exec (decode s.ac)
        { s' with
          ar := s'.pc, ir := s.ac, pc := s'.pc + 1#12, t := .t3
          cnt := { s'.cnt with cycles := s'.cnt.cycles + 3, reads := s'.cnt.reads + 1 } }) ∧
    (s.read s.pc = 0x6#4 ++ (s.pc + 1#12) → s.read (s.pc + 1#12) ≠ 0xFFFF#16 →
      ∃ s', step s = .next s' ∧ s'.pc = s.pc + 1#12 ∧
        step s' = exec (decode (s.read (s.pc + 1#12) + 1#16))
          { s' with
            ar := s'.pc, ir := s.read (s.pc + 1#12) + 1#16, pc := s'.pc + 1#12, t := .t3
            cnt := { s'.cnt with cycles := s'.cnt.cycles + 3, reads := s'.cnt.reads + 1 } }) ∧
    (s.read s.pc = 0x3#4 ++ s.pc → ∃ s', step s = .next s' ∧ s'.ir = 0x3#4 ++ s.pc ∧ s'.pc = s.pc + 1#12 ∧
      s'.read s.pc = s.ac ∧ s'.cnt.writes = s.cnt.writes + 1) ∧
    (s.read s.pc = 0x5#4 ++ s.pc → ∃ s', step s = .next s' ∧ s'.ir = 0x5#4 ++ s.pc ∧ s'.pc = s.pc + 1#12 ∧
      s'.read s.pc = 0x0#4 ++ (s.pc + 1#12)) ∧
    (s.read s.pc = 0x6#4 ++ s.pc → ∃ s', step s = .next s' ∧ s'.ir = 0x6#4 ++ s.pc ∧ s'.pc = s.pc + 1#12 ∧
      s'.read s.pc = (0x6#4 ++ s.pc) + 1#16))

/-! ### Register-reference instructions -/

/-- R83, CLA, with its corner cases: what the later micro-operations of the word see. Enable bits: the spec's
decision D3 (log 6). -/
def Obligations.ClaClearsTheAccumulator : Prop :=
  decode 0x7800#16 = .cla ∧
  ∀ s : State,
    exec .cla s = .next { s with
      ac := 0x0000#16, t := .t0
      cnt := { s.cnt with cycles := s.cnt.cycles + 1, instructions := s.cnt.instructions + 1 } } ∧
    (∃ s', exec (decode 0x7A00#16) s = .next s' ∧ s'.ac = 0xFFFF#16 ∧ s'.e = s.e) ∧
    (∃ s', exec (decode 0x7820#16) s = .next s' ∧ s'.ac = 0x0001#16 ∧ s'.e = s.e)

/-- R84, CLE, with its corner cases: with CIL and CIR it makes the logical shifts. Enable bits: the spec's decision
D3 (log 6). -/
def Obligations.CleClearsE : Prop :=
  decode 0x7400#16 = .cle ∧
  ∀ s : State,
    exec .cle s = .next { s with
      e := false, t := .t0
      cnt := { s.cnt with cycles := s.cnt.cycles + 1, instructions := s.cnt.instructions + 1 } } ∧
    (∃ s', exec (decode 0x7440#16) s = .next s' ∧ s'.ac = s.ac <<< 1 ∧ s'.e = s.ac.getLsbD 15) ∧
    (∃ s', exec (decode 0x7480#16) s = .next s' ∧ s'.ac = s.ac >>> 1 ∧ s'.e = s.ac.getLsbD 0)

/-- R85, CMA, with its corner case: with INC it makes the two's-complement negation, E unchanged. Enable bits: the
spec's decision D3 (log 6). -/
def Obligations.CmaComplementsTheAccumulator : Prop :=
  decode 0x7200#16 = .cma ∧
  ∀ s : State,
    exec .cma s = .next { s with
      ac := 0xFFFF#16 - s.ac, t := .t0
      cnt := { s.cnt with cycles := s.cnt.cycles + 1, instructions := s.cnt.instructions + 1 } } ∧
    (∃ s', exec (decode 0x7220#16) s = .next s' ∧ s'.ac.toNat = (65536 - s.ac.toNat) % 65536 ∧ s'.e = s.e)

/-- R86, CME, with its corner case: after CLE it sets E. Enable bits: the spec's decision D3 (log 6). -/
def Obligations.CmeComplementsE : Prop :=
  decode 0x7100#16 = .cme ∧
  ∀ s : State,
    exec .cme s = .next { s with
      e := xor s.e true, t := .t0
      cnt := { s.cnt with cycles := s.cnt.cycles + 1, instructions := s.cnt.instructions + 1 } } ∧
    (∃ s', exec (decode 0x7500#16) s = .next s' ∧ s'.e = true ∧ s'.ac = s.ac)

/-- R87, CIR: AC and E right by one; seventeen in a row restore both; CIR CIL leaves both unchanged. Enable bits:
the spec's decision D3 (log 6). -/
def Obligations.CirRotatesRightThroughE : Prop :=
  decode 0x7080#16 = .cir ∧
  (∀ s : State, exec .cir s = .next { s with
    ac := (s.ac >>> 1) ||| (if s.e then 0x8000#16 else 0x0000#16), e := s.ac.getLsbD 0, t := .t0
    cnt := { s.cnt with cycles := s.cnt.cycles + 1, instructions := s.cnt.instructions + 1 } }) ∧
  (∀ s : State, (microCir^[17]) s = s) ∧
  (∀ s : State, ∃ s', exec (decode 0x70C0#16) s = .next s' ∧ s'.ac = s.ac ∧ s'.e = s.e)

/-- R88, CIL: AC and E left by one; seventeen in a row restore both; in one word CIR runs first. Enable bits: the
spec's decision D3 (log 6). -/
def Obligations.CilRotatesLeftThroughE : Prop :=
  decode 0x7040#16 = .cil ∧
  (∀ s : State, exec .cil s = .next { s with
    ac := (s.ac <<< 1) ||| (if s.e then 0x0001#16 else 0x0000#16), e := s.ac.getLsbD 15, t := .t0
    cnt := { s.cnt with cycles := s.cnt.cycles + 1, instructions := s.cnt.instructions + 1 } }) ∧
  (∀ s : State, (microCil^[17]) s = s) ∧
  (∀ s : State, exec (decode 0x70C0#16) s = .next (microCil (microCir s.tick)).complete)

/-- R89, INC: AC plus one modulo 65536; E unchanged, also when AC wraps; INC SZA skips when it wraps. Enable bits:
the spec's decision D3 (log 6). -/
def Obligations.IncLeavesEUnchanged : Prop :=
  decode 0x7020#16 = .inc ∧
  ∀ s : State,
    (∃ sum : Word, sum.toNat = (s.ac.toNat + 1) % 65536 ∧ exec .inc s = .next { s with
      ac := sum, t := .t0
      cnt := { s.cnt with cycles := s.cnt.cycles + 1, instructions := s.cnt.instructions + 1 } }) ∧
    (s.ac = 0xFFFF#16 → ∃ s', exec (decode 0x7024#16) s = .next s' ∧ s'.ac = 0x0000#16 ∧ s'.e = s.e ∧
      s'.pc = s.pc + 1#12)

/-- R90, R91, R92, R93, the four skips, with their corner cases. Enable bits: the spec's decision D3 (log 6). -/
def Obligations.SkipsTestOneCondition : Prop :=
  decode 0x7010#16 = .spa ∧ decode 0x7008#16 = .sna ∧ decode 0x7004#16 = .sza ∧ decode 0x7002#16 = .sze ∧
  ∀ s : State,
    (exec .spa s = .next { s with
      pc := if s.ac.toNat < 32768 then s.pc + 1#12 else s.pc, t := .t0
      cnt := { s.cnt with cycles := s.cnt.cycles + 1, instructions := s.cnt.instructions + 1 } }) ∧
    (exec .sna s = .next { s with
      pc := if 32768 ≤ s.ac.toNat then s.pc + 1#12 else s.pc, t := .t0
      cnt := { s.cnt with cycles := s.cnt.cycles + 1, instructions := s.cnt.instructions + 1 } }) ∧
    (exec .sza s = .next { s with
      pc := if s.ac = 0x0000#16 then s.pc + 1#12 else s.pc, t := .t0
      cnt := { s.cnt with cycles := s.cnt.cycles + 1, instructions := s.cnt.instructions + 1 } }) ∧
    (exec .sze s = .next { s with
      pc := if s.e = false then s.pc + 1#12 else s.pc, t := .t0
      cnt := { s.cnt with cycles := s.cnt.cycles + 1, instructions := s.cnt.instructions + 1 } }) ∧
    (∃ s', exec (decode 0x7018#16) s = .next s' ∧ s'.pc = s.pc + 1#12) ∧
    (∃ s', exec (decode 0x7804#16) s = .next s' ∧ s'.ac = 0x0000#16 ∧ s'.pc = s.pc + 1#12) ∧
    (s.e = true → ∃ s', exec (decode 0x7102#16) s = .next s' ∧ s'.e = false ∧ s'.pc = s.pc + 1#12)

/-- R94, HLT: HALT is set and the instruction completes; with other bits, every other micro-operation of the word
has applied; every later step ends HALTED. The clause about stepMicro fixes its whole report, of which naming no
microcycle and no descriptor is the model's choice (log 13). That HALTED is a fault of step is the model's choice
(log 5). -/
def Obligations.HltHaltsAndSuppressesNothing : Prop :=
  decode 0x7001#16 = .hlt ∧
  (∀ s : State, exec .hlt s = .next { s with
    halt := true, t := .t0
    cnt := { s.cnt with cycles := s.cnt.cycles + 1, instructions := s.cnt.instructions + 1 } }) ∧
  (∀ (en : Enables) (s : State), en.getLsbD 0 = true → ∃ s', exec (decode (0x7#4 ++ en)) s = .next s' ∧
    s' = { (execRRI (en &&& ~~~1#12) s.tick).complete with halt := true } ∧
    step s' = .fault .halted ∧ runCommand .stepMicro s' = (.haltedMicro [] (observeStopped s'), s') ∧
    runCommand .stepInstruction s' = (.halted, s'))

/-- R82: the enabled micro-operations apply in the fixed order, each on what its predecessors left, with the values
each stage computes written out; the exec of every register-reference word, canonical, combination or NOP, is this.
Enable bits: the spec's decision D3 (log 6). -/
def Obligations.RegisterReferenceComposition : Prop :=
  ∀ (en : Enables) (s : State),
    let ac1 := if en.getLsbD 11 then 0x0000#16 else s.ac
    let e1 := if en.getLsbD 10 then false else s.e
    let ac2 := if en.getLsbD 9 then ~~~ac1 else ac1
    let e2 := if en.getLsbD 8 then !e1 else e1
    let ac3 := if en.getLsbD 7 then (ac2 >>> 1) ||| (if e2 then 0x8000#16 else 0x0000#16) else ac2
    let e3 := if en.getLsbD 7 then ac2.getLsbD 0 else e2
    let ac4 := if en.getLsbD 6 then (ac3 <<< 1) ||| (if e3 then 0x0001#16 else 0x0000#16) else ac3
    let e4 := if en.getLsbD 6 then ac3.getLsbD 15 else e3
    let ac5 := if en.getLsbD 5 then ac4 + 1#16 else ac4
    let pc1 := if en.getLsbD 4 && !ac5.getLsbD 15 then s.pc + 1#12 else s.pc
    let pc2 := if en.getLsbD 3 && ac5.getLsbD 15 then pc1 + 1#12 else pc1
    let pc3 := if en.getLsbD 2 && ac5 == 0x0000#16 then pc2 + 1#12 else pc2
    let pc4 := if en.getLsbD 1 && !e4 then pc3 + 1#12 else pc3
    let s' : State := { s with
      ac := ac5, e := e4, pc := pc4, halt := s.halt || en.getLsbD 0, t := .t0
      cnt := { s.cnt with cycles := s.cnt.cycles + 1, instructions := s.cnt.instructions + 1 } }
    exec (decode (0x7#4 ++ en)) s = .next s' ∧ exec (.rri en) s = .next s' ∧
      (Running s → s.t = .t3 → s.ir = 0x7#4 ++ en → micro s = .next s')

/-- R95: the T3 of a register-reference word ends the instruction and writes no AR, IR, DR, memory, reads or writes. -/
def Obligations.RegisterReferenceFrame : Prop :=
  ∀ (en : Enables) (s : State), ∃ s', exec (decode (0x7#4 ++ en)) s = .next s' ∧
    s'.t = .t0 ∧ s'.cnt.instructions = s.cnt.instructions + 1 ∧ s'.cnt.cycles = s.cnt.cycles + 1 ∧
    s'.ar = s.ar ∧ s'.ir = s.ir ∧ s'.dr = s.dr ∧ s'.fault = s.fault ∧ s'.mem = s.mem ∧
    s'.cnt.reads = s.cnt.reads ∧ s'.cnt.writes = s.cnt.writes

/-- R96: NOP completes and changes nothing else; the skips of one word add up, to at most three. Enable bits: the
spec's decision D3 (log 6). -/
def Obligations.NopAndAddedSkips : Prop :=
  decode 0x7000#16 = .nop ∧
  (∀ s : State, exec .nop s = .next { s with
    t := .t0
    cnt := { s.cnt with cycles := s.cnt.cycles + 1, instructions := s.cnt.instructions + 1 } }) ∧
  (∀ s : State, Running s → s.t = .t0 → s.read s.pc = 0x7000#16 → ∃ s', step s = .next s' ∧
    s'.ac = s.ac ∧ s'.e = s.e ∧ s'.dr = s.dr ∧ s'.mem = s.mem ∧ s'.halt = false ∧ s'.fault = false ∧
    s'.pc = s.pc + 1#12 ∧
    s'.cnt = ⟨s.cnt.cycles + 4, s.cnt.instructions + 1, s.cnt.reads + 1, s.cnt.writes⟩) ∧
  (∀ (en : Enables) (s : State), ∃ s', exec (decode (0x7#4 ++ en)) s = .next s' ∧
    ∃ n : Nat, n ≤ 3 ∧ s'.pc = s.pc + BitVec.ofNat 12 n ∧
      n = (if en.getLsbD 4 && !s'.ac.getLsbD 15 then 1 else 0) + (if en.getLsbD 3 && s'.ac.getLsbD 15 then 1 else 0) +
        (if en.getLsbD 2 && s'.ac == 0x0000#16 then 1 else 0) + (if en.getLsbD 1 && !s'.e then 1 else 0))

/-! ### Who writes what -/

/-- R12, R13, R14: the only writers of AR, IR and DR, and what they write. -/
def Obligations.WritersOfArIrDr : Prop :=
  ∀ s s' : State, micro s = .next s' →
    s'.ar = (match s.t, descriptor s.ir with
      | .t0, _ => s.pc
      | .t3, .memoryRef _ a => a
      | _, _ => s.ar) ∧
    s'.ir = (if s.t = .t1 then s.read s.ar else s.ir) ∧
    s'.dr = (match s.t, descriptor s.ir with
      | .t4, .memoryRef .and _ => s.read s.ar
      | .t4, .memoryRef .add _ => s.read s.ar
      | .t4, .memoryRef .lda _ => s.read s.ar
      | .t4, .memoryRef .isz _ => s.read s.ar
      | _, _ => s.dr)

/-- R10, R11, R15: only the listed instructions write AC, PC and E. Enable bits: the spec's decision D3 (log 6). -/
def Obligations.WritersOfAcPcE : Prop :=
  ∀ s s' : State, micro s = .next s' →
    (s'.ac ≠ s.ac →
      (s.t = .t3 ∧ ∃ en, descriptor s.ir = .registerRef en ∧
        (enabled en .cla || enabled en .cma || enabled en .cir || enabled en .cil || enabled en .inc) = true) ∨
      (s.t = .t5 ∧ ∃ m a, descriptor s.ir = .memoryRef m a ∧ (m = .and ∨ m = .add ∨ m = .lda))) ∧
    (s'.e ≠ s.e →
      (s.t = .t3 ∧ ∃ en, descriptor s.ir = .registerRef en ∧
        (enabled en .cle || enabled en .cme || enabled en .cir || enabled en .cil) = true) ∨
      (s.t = .t5 ∧ ∃ a, descriptor s.ir = .memoryRef .add a)) ∧
    (s'.pc ≠ s.pc →
      s.t = .t1 ∨
      (s.t = .t3 ∧ ∃ en, descriptor s.ir = .registerRef en ∧
        (enabled en .spa || enabled en .sna || enabled en .sza || enabled en .sze) = true) ∨
      (s.t = .t4 ∧ ∃ m a, descriptor s.ir = .memoryRef m a ∧ (m = .bun ∨ m = .bsa)) ∨
      (s.t = .t5 ∧ ∃ a, descriptor s.ir = .memoryRef .isz a))

/-- R16, R17: HALT is set only by an enabled HLT at T3, FAULT only by an unmapped word at T3, and no microcycle
clears either; only reset and loadImage do. FAULT is the spec's decision D4 (log 7). -/
def Obligations.HaltAndFaultAreSticky : Prop :=
  (∀ s s' : State, micro s = .next s' →
    s'.halt = (match s.t, descriptor s.ir with
      | .t3, .registerRef en => enabled en .hlt
      | _, _ => false) ∧
    s'.fault = (match s.t, descriptor s.ir with
      | .t3, .unmapped _ => true
      | _, _ => false)) ∧
  (∀ (cmd : Command) (s : State), (s.halt = true ∨ s.fault = true) →
    cmd = .reset ∨ (∃ image, cmd = .loadImage image) ∨ (runCommand cmd s).2 = s)

/-- R29, R30: a microcycle writes at most the one word at AR, only at T4 of STA and BSA and at T5 of ISZ, with the
value the rule gives; every other word reads as before. -/
def Obligations.OneWordWrittenPerMicrocycle : Prop :=
  ∀ s s' : State, s.mem.wf = true → micro s = .next s' →
    s'.mem.wf = true ∧ (∀ b : Address, b ≠ s.ar → s'.read b = s.read b) ∧
    s'.read s.ar = (match s.t, descriptor s.ir with
      | .t4, .memoryRef .sta _ => s.ac
      | .t4, .memoryRef .bsa _ => 0x0#4 ++ s.pc
      | .t5, .memoryRef .isz _ => s.dr + 1#16
      | _, _ => s.read s.ar)

/-- R68, and R20, R59 beside it: exactly which microcycles increment which counter, and `instructions` on exactly the
microcycle that returns T to T0. -/
def Obligations.CounterIncrements : Prop :=
  ∀ s s' : State, micro s = .next s' →
    let completes : Nat := match s.t, descriptor s.ir with
      | .t3, .registerRef _ => 1
      | .t4, .memoryRef .sta _ => 1
      | .t4, .memoryRef .bun _ => 1
      | .t4, .memoryRef .bsa _ => 1
      | .t5, .memoryRef .and _ => 1
      | .t5, .memoryRef .add _ => 1
      | .t5, .memoryRef .lda _ => 1
      | .t5, .memoryRef .isz _ => 1
      | _, _ => 0
    s'.cnt.cycles = s.cnt.cycles + 1 ∧
    s'.cnt.instructions = s.cnt.instructions + completes ∧ (s'.t = .t0 ↔ completes = 1) ∧
    s'.cnt.reads = s.cnt.reads + (match s.t, descriptor s.ir with
      | .t1, _ => 1
      | .t4, .memoryRef .and _ => 1
      | .t4, .memoryRef .add _ => 1
      | .t4, .memoryRef .lda _ => 1
      | .t4, .memoryRef .isz _ => 1
      | _, _ => 0) ∧
    s'.cnt.writes = s.cnt.writes + (match s.t, descriptor s.ir with
      | .t4, .memoryRef .sta _ => 1
      | .t5, .memoryRef .isz _ => 1
      | _, _ => 0)

/-! ### Invariants -/

/-- The invariant holds in the reset state (R113). T = T0 after reset is the spec's decision D8 (log 10). -/
def Obligations.ResetMeetsTheInvariant : Prop :=
  State.reset.Inv ∧ State.reset.ProfilerConsistent

/-- Every step keeps the invariant: canonical memory, HALT and FAULT never both and each where its rule puts it, and T
agreeing with AR, PC, IR and DR (R11, R12, R21, R67, R69). -/
def Obligations.StepKeepsTheInvariant : Prop :=
  ∀ s s' : State, s.Inv → step s = .next s' → s'.Inv

/-- Every microcycle keeps the invariant, and one is always performed: a running block never reaches T4 or T5 with a
word that has no such microcycle (R67). -/
def Obligations.MicrocycleKeepsTheInvariant : Prop :=
  ∀ s : State, s.Inv → Running s → ∃ s', micro s = .next s' ∧ s'.Inv

/-- R21: in every state a sequence of whole commands reaches from creation, HALT and FAULT are not both 1 and every
element is in its range; the model's invariant holds too. -/
def Obligations.EveryReachedStateMeetsTheInvariant : Prop :=
  ∀ cmds : List Command, ∀ s, s = (runCommands cmds State.reset).2 →
    s.Inv ∧ ¬(s.halt = true ∧ s.fault = true) ∧ s.pc.toNat ≤ 4095 ∧ s.ar.toNat ≤ 4095 ∧ s.ac.toNat ≤ 65535 ∧
      s.dr.toNat ≤ 65535 ∧ s.ir.toNat ≤ 65535 ∧ (s.e.toNat = 0 ∨ s.e.toNat = 1) ∧
      ∀ a : Address, (s.read a).toNat ≤ 65535

/-- Every microcycle and every step keeps what R125's increments make of the four counters. -/
def Obligations.ProfilerStaysConsistent : Prop :=
  ∀ s s' : State, s.ProfilerConsistent →
    (micro s = .next s' → s'.ProfilerConsistent) ∧ (step s = .next s' → s'.ProfilerConsistent)

/-- R97: no instruction but an unmapped word traps: exec answers a next state for every instruction, operand and state,
with FAULT as before. R97 excepts the words 0x8000 to 0xFFFF, which fault (R100, decision D4, log 7): that exec answers a
next state for them too, one with FAULT = 1, is the model's choice (log 4) and no success. -/
def Obligations.NoInstructionTraps : Prop :=
  (∀ (i : Instr) (s : State), (∀ w : Word, i ≠ .unmapped w) → ∃ s', exec i s = .next s' ∧ s'.fault = s.fault) ∧
  ∀ (w : Word) (s : State), ∃ s', exec (.unmapped w) s = .next s' ∧ s'.fault = true

/-! ### Commands -/

/-- R113, R114: reset zeroes every element and sets T to T0, from every state; twice is once. T = T0 is the spec's
decision D8 (log 10), FAULT = 0 its decision D4 (log 7). -/
def Obligations.ResetZeroesEverything : Prop :=
  ∀ s : State, ∃ s', runCommand .reset s = (.okReset, s') ∧
    s'.pc = 0x000#12 ∧ s'.ar = 0x000#12 ∧ s'.ir = 0x0000#16 ∧ s'.ac = 0x0000#16 ∧ s'.dr = 0x0000#16 ∧ s'.e = false ∧
    s'.halt = false ∧ s'.fault = false ∧ s'.t = .t0 ∧ (∀ a : Address, s'.read a = 0x0000#16) ∧
    s'.cnt = ⟨0, 0, 0, 0⟩ ∧ runCommand .reset s' = (.okReset, s') ∧ State.reset = s'

/-- R116: loadImage of a mapping zeroes memory, writes the good entries, drops the bad ones with the right error
kind, and resets every other element. T = T0 is the spec's decision D8 (log 10); which words are dropped, and as
what, its decision D9 (log 12). -/
def Obligations.LoadImageWritesTheImage : Prop :=
  ∀ (image : Image) (s : State), (image.map Prod.fst).Nodup →
    ∃ dropped s', runCommand (.loadImage image) s = (.okLoad dropped, s') ∧
      { s' with mem := [] } = State.reset ∧
      (∀ a w : Int, (a, w) ∈ image → 0 ≤ a → a ≤ 4095 → 0 ≤ w → w ≤ 65535 →
        ((s'.read (BitVec.ofInt 12 a)).toNat : Int) = w) ∧
      (∀ b : Address, (∀ w : Int, ((b.toNat : Int), w) ∈ image → w < 0 ∨ 65535 < w) → s'.read b = 0x0000#16) ∧
      ∀ (a w : Int) (k : EntryError), ⟨a, w, k⟩ ∈ dropped ↔ (a, w) ∈ image ∧
        ((k = .invalidAddress ∧ (a < 0 ∨ 4095 < a)) ∨
          (k = .malformedWord ∧ 0 ≤ a ∧ a ≤ 4095 ∧ (w < 0 ∨ 65535 < w)))

/-- R117, R118: reset and loadImage do the same from every state, and the next two microcycles fetch M[0x000]. That
both abandon the instruction is the spec's decision D10, T = T0 its decision D8 (log 10). -/
def Obligations.ResetAndLoadAbandonTheInstruction : Prop :=
  ∀ (s : State) (image : Image),
    runCommand .reset s = runCommand .reset State.reset ∧
    runCommand (.loadImage image) s = runCommand (.loadImage image) State.reset ∧
    ∀ cmd : Command, cmd = .reset ∨ cmd = .loadImage image →
      ∃ s1 s2, micro (runCommand cmd s).2 = .next s1 ∧ s1.ar = 0x000#12 ∧ s1.t = .t1 ∧ micro s1 = .next s2 ∧
        s2.ir = (runCommand cmd s).2.read 0x000#12 ∧ s2.pc = 0x001#12 ∧ s2.t = .t2

/-- R25: a read returns the value of the element and changes nothing. The bounds of a range are the model's choice
(log 14), so the clause about a range rests on it. -/
def Obligations.ReadsReturnTheElementAndChangeNothing : Prop :=
  ∀ s : State,
    (∀ q : Query, (runCommand (.read q) s).2 = s) ∧
    runCommand (.read (.register .pc)) s = (.okRead (.register .pc s.pc.toNat), s) ∧
    runCommand (.read (.register .ar)) s = (.okRead (.register .ar s.ar.toNat), s) ∧
    runCommand (.read (.register .ir)) s = (.okRead (.register .ir s.ir.toNat), s) ∧
    runCommand (.read (.register .ac)) s = (.okRead (.register .ac s.ac.toNat), s) ∧
    runCommand (.read (.register .dr)) s = (.okRead (.register .dr s.dr.toNat), s) ∧
    runCommand (.read (.register .e)) s = (.okRead (.register .e (if s.e then 1 else 0)), s) ∧
    runCommand (.read .profiler) s = (.okRead (.profiler s.cnt), s) ∧
    runCommand (.read .halt) s = (.okRead (.flag s.halt), s) ∧
    runCommand (.read .fault) s = (.okRead (.flag s.fault), s) ∧
    runCommand (.read .t) s = (.okRead (.microcycle s.t), s) ∧
    ∀ first last : Address, first ≤ last → ∃ ws : List Word,
      runCommand (.read (.memoryRange first last)) s = (.okRead (.words ws), s) ∧
      ws.length = last.toNat - first.toNat + 1 ∧
      ∀ i, i < ws.length → ws[i]? = some (s.read (first + BitVec.ofNat 12 i))

/-- R72: what each stepMicro reports, whatever its outcome. Where it performs a microcycle: the outputs after it,
the microcycle performed and `decode(IR)` for T2 to T5, with OK the registers that differ, and with the FAULTED of
that microcycle none, none having changed. Where it performs none: the unchanged outputs and an empty changed set.
What is reported is the spec's decision D12; that no microcycle and no descriptor are named where none was performed
is the model's choice (log 13). So is that no descriptor is named at T0 and T1 (log 13); what a repeated FAULTED
carries is the model's inference (log 21). -/
def Obligations.StepMicroReportsWhatChanged : Prop :=
  (∀ s s' : State, micro s = .next s' →
    ∃ (changed : List Reg) (obs : Observation),
      runCommand .stepMicro s =
        (if s'.fault then .faultedMicro .unmappedOpcode s'.ir s'.ar changed obs else .okMicro changed obs, s') ∧
      (∀ r : Reg, r ∈ changed ↔ s.reg r ≠ s'.reg r) ∧ (s'.fault = true → changed = []) ∧
      obs.outputs = ⟨⟨s'.pc, s'.ar, s'.ir, s'.ac, s'.dr, s'.e⟩, s'.cnt, s'.halt, s'.fault⟩ ∧
      obs.performed = some s.t ∧
      obs.decoded = (if s.t = .t0 ∨ s.t = .t1 then none else some (descriptor s'.ir))) ∧
  ∀ s : State, (s.halt = true ∨ s.fault = true) →
    ∃ obs : Observation,
      runCommand .stepMicro s =
        (if s.halt then .haltedMicro [] obs else .faultedMicro .unmappedOpcode s.ir s.ar [] obs, s) ∧
      obs.outputs = ⟨⟨s.pc, s.ar, s.ir, s.ac, s.dr, s.e⟩, s.cnt, s.halt, s.fault⟩ ∧
      obs.performed = none ∧ obs.decoded = none

/-- R70: the changed set a stepInstruction reports is the union over the microcycles it performs, those that n stepMicro
commands perform: a register is in it exactly if one of them changed it, so every register that differs after the
command is. The changed set is the spec's decision D12 (log 13); FAULTED carries the union of its partial progress (R70;
how D12's "empty on FAULTED" reads beside it is log 23). -/
def Obligations.StepInstructionReportsEveryChange : Prop :=
  ∀ (s s' : State) (changed : List Reg) (n : Nat),
    (runCommand .stepInstruction s = (.okInstruction changed n, s') ∨
      ∃ ir addr, runCommand .stepInstruction s = (.faulted .unmappedOpcode ir addr changed n, s')) →
    s' = afterMicros n s ∧ s'.cnt.cycles = s.cnt.cycles + n ∧
    (∀ r : Reg, r ∈ changed ↔ ∃ k, k < n ∧ (afterMicros k s).reg r ≠ (afterMicros (k + 1) s).reg r) ∧
    ∀ r : Reg, s.reg r ≠ s'.reg r → r ∈ changed

/-- R101: with indirect addressing configured there is no step, and every command is refused with no change (that
commands other than steps are refused too is the model's reading, log 9). -/
def Obligations.IndirectConfigurationIsRefused : Prop :=
  ∀ (c : Config.Settings) (s : State), c.indirectEnabled = true →
    stepWith c s = .refused .indirectConfigured ∧
    ∀ cmd : Command, runCommandWith c cmd s = (.refusedIndirect, s)

/-- R119: a block stepped with no image executes AND 000 at every address in turn forever and never halts; AC stays
0. -/
def Obligations.EmptyMemoryNeverHalts : Prop :=
  ∀ k : Nat, ∃ s', Sys2Proof.core.run k Sys2Proof.core.reset = .next s' ∧ s'.halt = false ∧ s'.fault = false ∧
    s'.ac = 0x0000#16 ∧ s'.pc = BitVec.ofNat 12 k ∧ s'.t = .t0 ∧ s'.cnt = ⟨6 * k, k, 2 * k, 0⟩ ∧
    decode (s'.read s'.pc) = .and 0x000#12

/-- Every whole command keeps the invariant, from every state that meets it, reset, loadImage and reads among them (R21,
R57, R117). -/
def Obligations.EveryCommandKeepsTheInvariant : Prop :=
  ∀ (cmd : Command) (s : State), s.Inv → (runCommand cmd s).2.Inv
end

