-- ==== Sys2Proof/Laws/Decode.lean ====
section
/-! SUPPORT. The fields of encoded words, and what the descriptor and the table row of a word are. -/

namespace Sys2Proof

@[simp] theorem opcodeTop_append (top : BitVec 4) (low : BitVec 12) : opcodeTop (top ++ low) = top := by
  apply BitVec.eq_of_getLsbD_eq
  intro i hi
  simp only [opcodeTop, BitVec.getLsbD_extractLsb', BitVec.getLsbD_append]
  have h : ¬(12 + i < 12) := by omega
  simp [hi, h]

@[simp] theorem low12_append (top : BitVec 4) (low : BitVec 12) : low12 (top ++ low) = low := by
  apply BitVec.eq_of_getLsbD_eq
  intro i hi
  simp only [low12, BitVec.getLsbD_extractLsb', BitVec.getLsbD_append, Nat.zero_add, hi, decide_true, Bool.true_and,
    if_true]

/-- A word is its two fields (R44). -/
theorem word_eq_fields (w : Word) : opcodeTop w ++ low12 w = w := by
  apply BitVec.eq_of_getLsbD_eq
  intro i hi
  simp only [opcodeTop, low12, BitVec.getLsbD_append, BitVec.getLsbD_extractLsb']
  by_cases h : i < 12
  · simp [h]
  · have h' : 12 + (i - 12) = i := by omega
    have h'' : i - 12 < 4 := by omega
    simp [h, h', h'']

/-- Words with opcode 7 are register-reference (R45). -/
theorem descriptor_rriWord (en : Enables) : descriptor (rriWord en) = .registerRef en := by
  unfold descriptor rriWord
  simp

/-- Words with opcodes 0 to 6 are memory-reference (R45, R46). -/
theorem descriptor_mriWord (m : MriOp) (a : Address) : descriptor (mriWord m a) = .memoryRef m a := by
  unfold descriptor mriWord
  cases m <;> simp [mriOpcode, rriOpcode, mriTable]

/-- Words with bit 15 set are unmapped (R50). -/
theorem descriptor_unmapped (w : Word) (h : w.getLsbD 15 = true) : descriptor w = .unmapped (opcodeTop w) := by
  have htop : 8 ≤ (opcodeTop w).toNat := by
    have hb : (opcodeTop w).getLsbD 3 = true := by simpa [opcodeTop] using h
    revert hb
    generalize opcodeTop w = t
    revert t
    decide
  have hne : opcodeTop w ≠ rriOpcode := by
    intro he
    rw [he] at htop
    revert htop
    decide
  have hlen : mriTable.length ≤ (opcodeTop w).toNat := by
    have : mriTable.length = 7 := rfl
    omega
  unfold descriptor
  rw [if_neg hne, List.getElem?_eq_none hlen]

/-- The three ways a word can decode, each with the word it then is (R45, R50). -/
theorem descriptor_cases (w : Word) :
    (∃ en, descriptor w = .registerRef en ∧ w = rriWord en) ∨
      (∃ m a, descriptor w = .memoryRef m a ∧ w = mriWord m a) ∨
        (descriptor w = .unmapped (opcodeTop w) ∧ w.getLsbD 15 = true) := by
  have hw := word_eq_fields w
  have hcases : opcodeTop w = rriOpcode ∨ (∃ m, opcodeTop w = mriOpcode m) ∨ (opcodeTop w).getLsbD 3 = true := by
    generalize opcodeTop w = t
    revert t
    simp only [rriOpcode]
    intro t
    have hall : ∀ t : BitVec 4, t = 0x7#4 ∨ t = mriOpcode .and ∨ t = mriOpcode .add ∨ t = mriOpcode .lda ∨
        t = mriOpcode .sta ∨ t = mriOpcode .bun ∨ t = mriOpcode .bsa ∨ t = mriOpcode .isz ∨ t.getLsbD 3 = true := by
      decide
    rcases hall t with h | h | h | h | h | h | h | h | h
    · exact .inl h
    all_goals first | exact .inr (.inl ⟨_, h⟩) | exact .inr (.inr h)
  rcases hcases with h | ⟨m, h⟩ | h
  · refine .inl ⟨low12 w, ?_, ?_⟩
    · unfold descriptor
      rw [if_pos h]
    · rw [h] at hw
      exact hw.symm
  · refine .inr (.inl ⟨m, low12 w, ?_, ?_⟩)
    · rw [h] at hw
      rw [← hw, low12_append]
      exact descriptor_mriWord m (low12 w)
    · rw [h] at hw
      exact hw.symm
  · have hb : w.getLsbD 15 = true := by simpa [opcodeTop] using h
    exact .inr (.inr ⟨descriptor_unmapped w hb, hb⟩)

/-- The table row of an enable set: NOP, a canonical code, or a combination of two or more (R48, R49). -/
theorem decodeEnables_cases (en : Enables) :
    (en = 0#12 ∧ decodeEnables en = .nop) ∨
      (∃ op, en = canonicalBit op ∧ decodeEnables en = .ofMicroOp op) ∨
        (en ≠ 0#12 ∧ (∀ op, en ≠ canonicalBit op) ∧ decodeEnables en = .rri en) := by
  unfold decodeEnables
  by_cases h0 : en = 0#12
  · exact .inl ⟨h0, if_pos h0⟩
  · rw [if_neg h0]
    cases hf : MicroOp.all.find? (fun op => canonicalBit op == en) with
    | some op =>
      have := List.find?_some hf
      exact .inr (.inl ⟨op, (beq_iff_eq.1 this).symm, rfl⟩)
    | none =>
      refine .inr (.inr ⟨h0, fun op he => ?_, rfl⟩)
      have hall := List.find?_eq_none.1 hf op (by cases op <;> decide)
      exact hall (beq_iff_eq.2 he.symm)

/-- The canonical code of a micro-operation decodes to that row. -/
theorem decodeEnables_canonicalBit (op : MicroOp) : decodeEnables (canonicalBit op) = .ofMicroOp op := by
  cases op <;> decide

/-- A canonical code enables its own micro-operation and no other (R48). -/
theorem enabled_canonicalBit (op op' : MicroOp) : enabled (canonicalBit op) op' = decide (op' = op) := by
  cases op <;> cases op' <;> decide

end Sys2Proof
end

