-- ==== Sys2Proof/Laws/Memory.lean ====
section
/-! SUPPORT. The memory list: read after write, what a write leaves alone, the canonical form that every operation
keeps, and that it is canonical: two memories in it that read alike are the same list. -/

namespace Sys2Proof.Machine

/-! ### The canonical form -/

theorem memWfFrom_cons (lo k : Nat) (w : Word) (rest : Memory) :
    memWfFrom lo ((k, w) :: rest) = true ↔ lo ≤ k ∧ k < memWords ∧ w ≠ 0x0000#16 ∧ memWfFrom (k + 1) rest = true := by
  simp [memWfFrom, and_assoc]

theorem memWfFrom_mono {lo lo' : Nat} (h : lo ≤ lo') (m : Memory) (hm : memWfFrom lo' m = true) :
    memWfFrom lo m = true := by
  cases m with
  | nil => rfl
  | cons c rest =>
    obtain ⟨k, w⟩ := c
    rw [memWfFrom_cons] at hm ⊢
    exact ⟨by omega, hm.2⟩

/-- Below the first listed address everything reads as 0x0000. -/
theorem memRead_below {lo a : Nat} (h : a < lo) (m : Memory) (hm : memWfFrom lo m = true) : memRead m a = 0x0000#16 := by
  induction m generalizing lo with
  | nil => rfl
  | cons c rest ih =>
    obtain ⟨k, w⟩ := c
    rw [memWfFrom_cons] at hm
    have hk : k ≠ a := by omega
    rw [memRead, if_neg hk]
    exact ih (by omega) hm.2.2.2

theorem memWfFrom_write (m : Memory) {lo a : Nat} (v : Word) (hm : memWfFrom lo m = true) (hlo : lo ≤ a)
    (ha : a < memWords) : memWfFrom lo (memWrite m a v) = true := by
  induction m generalizing lo with
  | nil =>
    unfold memWrite
    split
    · rfl
    · exact (memWfFrom_cons ..).2 ⟨hlo, ha, ‹_›, rfl⟩
  | cons c rest ih =>
    obtain ⟨k, w⟩ := c
    have hm' := (memWfFrom_cons ..).1 hm
    obtain ⟨h1, h2, h3, h4⟩ := hm'
    unfold memWrite
    split
    · split
      · exact hm
      · exact (memWfFrom_cons ..).2 ⟨hlo, ha, ‹_›, (memWfFrom_cons ..).2 ⟨by omega, h2, h3, h4⟩⟩
    · split
      · subst_vars
        split
        · exact memWfFrom_mono (by omega) rest h4
        · exact (memWfFrom_cons ..).2 ⟨h1, ha, ‹_›, h4⟩
      · exact (memWfFrom_cons ..).2 ⟨h1, h2, h3, ih h4 (by omega)⟩

/-- Every write keeps the canonical form. -/
theorem memWrite_wf (m : Memory) (a : Nat) (v : Word) (hm : m.wf = true) (ha : a < memWords) :
    Memory.wf (memWrite m a v) = true :=
  memWfFrom_write m v hm (Nat.zero_le a) ha

/-- A 12-bit address is inside the memory (R28). -/
theorem address_lt_memWords (a : Address) : a.toNat < memWords := a.isLt

theorem State.write_wf (s : State) (a : Address) (v : Word) (hm : s.mem.wf = true) : (s.write a v).mem.wf = true :=
  memWrite_wf s.mem a.toNat v hm (address_lt_memWords a)

/-! ### Reads after writes -/

theorem memRead_write_same_from (m : Memory) {lo : Nat} (a : Nat) (v : Word) (hm : memWfFrom lo m = true) :
    memRead (memWrite m a v) a = v := by
  induction m generalizing lo with
  | nil =>
    unfold memWrite
    split
    · simp_all [memRead]
    · simp [memRead]
  | cons c rest ih =>
    obtain ⟨k, w⟩ := c
    obtain ⟨_, _, _, h4⟩ := (memWfFrom_cons ..).1 hm
    unfold memWrite
    split
    · split
      · have hk : k ≠ a := by omega
        rw [memRead, if_neg hk, memRead_below (by omega) rest h4]
        exact ‹v = _›.symm
      · simp [memRead]
    · split
      · split
        · rw [memRead_below (by omega) rest h4]
          exact ‹v = _›.symm
        · simp [memRead]
      · have hk : k ≠ a := by omega
        rw [memRead, if_neg hk]
        exact ih h4

/-- A read after a write to the same address gives the word written (R31). -/
theorem memRead_write_same (m : Memory) (a : Nat) (v : Word) (hm : m.wf = true) : memRead (memWrite m a v) a = v :=
  memRead_write_same_from m a v hm

/-- A write leaves every other address alone (R31), in any list. -/
theorem memRead_write_other (m : Memory) (a b : Nat) (v : Word) (h : b ≠ a) :
    memRead (memWrite m a v) b = memRead m b := by
  induction m with
  | nil =>
    unfold memWrite
    split
    · rfl
    · simp [memRead, Ne.symm h]
  | cons c rest ih =>
    obtain ⟨k, w⟩ := c
    unfold memWrite
    split
    · split
      · rfl
      · simp [memRead, Ne.symm h]
    · split
      · have hk : k ≠ b := by omega
        split <;> simp [memRead, hk, Ne.symm h]
      · simp only [memRead, ih]

@[simp] theorem State.read_write_same (s : State) (a : Address) (v : Word) (hm : s.mem.wf = true) :
    (s.write a v).read a = v :=
  memRead_write_same s.mem a.toNat v hm

theorem State.read_write_other (s : State) (a b : Address) (v : Word) (h : b ≠ a) :
    (s.write a v).read b = s.read b :=
  memRead_write_other s.mem a.toNat b.toNat v (fun hh => h (BitVec.eq_of_toNat_eq hh))

/-! ### Canonicity -/

/-- Two memories in canonical form that read alike everywhere are the same list. -/
theorem mem_ext_from (m m' : Memory) {lo lo' : Nat} (hm : memWfFrom lo m = true) (hm' : memWfFrom lo' m' = true)
    (h : ∀ a, memRead m a = memRead m' a) : m = m' := by
  induction m generalizing m' lo lo' with
  | nil =>
    cases m' with
    | nil => rfl
    | cons c rest =>
      obtain ⟨k, w⟩ := c
      have hc := (memWfFrom_cons ..).1 hm'
      have hk := h k
      simp only [memRead, if_true] at hk
      exact absurd hk.symm hc.2.2.1
  | cons c rest ih =>
    obtain ⟨k, w⟩ := c
    obtain ⟨_, _, hw, hr⟩ := (memWfFrom_cons ..).1 hm
    cases m' with
    | nil =>
      have hk := h k
      simp only [memRead, if_true] at hk
      exact absurd hk hw
    | cons c' rest' =>
      obtain ⟨k', w'⟩ := c'
      obtain ⟨_, _, hw', hr'⟩ := (memWfFrom_cons ..).1 hm'
      have hkk : k = k' := by
        rcases Nat.lt_trichotomy k k' with hlt | heq | hgt
        · have hk := h k
          have hne : k' ≠ k := by omega
          simp only [memRead, if_true, if_neg hne] at hk
          rw [memRead_below (by omega) rest' hr'] at hk
          exact absurd hk hw
        · exact heq
        · have hk := h k'
          have hne : k ≠ k' := by omega
          simp only [memRead, if_true, if_neg hne] at hk
          rw [memRead_below (by omega) rest hr] at hk
          exact absurd hk.symm hw'
      subst hkk
      have hww : w = w' := by
        have hk := h k
        simpa only [memRead, if_true] using hk
      subst hww
      refine congrArg _ (ih rest' hr hr' (fun a => ?_))
      by_cases ha : k = a
      · subst ha
        rw [memRead_below (by omega) rest hr, memRead_below (by omega) rest' hr']
      · have hk := h a
        simpa only [memRead, if_neg ha] using hk

theorem Memory.ext_of_read (m m' : Memory) (hm : m.wf = true) (hm' : m'.wf = true)
    (h : ∀ a, memRead m a = memRead m' a) : m = m' :=
  mem_ext_from m m' hm hm' h

/-! ### Images -/

theorem entryError_eq_none (e : Int × Int) :
    entryError e = none ↔ (0 ≤ e.1 ∧ e.1 ≤ 4095) ∧ (0 ≤ e.2 ∧ e.2 ≤ 65535) := by
  unfold entryError
  split
  · simp only [reduceCtorEq, false_iff]
    omega
  · split
    · simp only [reduceCtorEq, false_iff]
      omega
    · simp only [true_iff]
      omega

/-- Writing or dropping an image entry keeps the canonical form. -/
theorem loadEntry_wf (m : Memory) (e : Int × Int) (hm : m.wf = true) : (loadEntry m e).wf = true := by
  unfold loadEntry
  split
  · have h := (entryError_eq_none e).1 ‹_›
    exact memWrite_wf m _ _ hm (by unfold memWords; omega)
  · exact hm

/-- An image's memory is in canonical form. -/
theorem imageMemory_wf (image : Image) : (imageMemory image).wf = true := by
  have key : ∀ m : Memory, m.wf = true → Memory.wf (image.foldl loadEntry m) = true := by
    induction image with
    | nil => exact fun m hm => hm
    | cons e rest ih => exact fun m hm => ih _ (loadEntry_wf m e hm)
  exact key [] rfl

end Sys2Proof.Machine
end

