-- ==== Sys2Proof/Laws/State.lean ====
section
/-! SUPPORT. One lemma per field per named update of the state, so that no proof unfolds a record update. -/

namespace Sys2Proof.Machine

variable (s : State)

/-! ### write -/

@[simp] theorem State.write_pc (a : Address) (v : Word) : (s.write a v).pc = s.pc := rfl
@[simp] theorem State.write_ar (a : Address) (v : Word) : (s.write a v).ar = s.ar := rfl
@[simp] theorem State.write_ir (a : Address) (v : Word) : (s.write a v).ir = s.ir := rfl
@[simp] theorem State.write_ac (a : Address) (v : Word) : (s.write a v).ac = s.ac := rfl
@[simp] theorem State.write_dr (a : Address) (v : Word) : (s.write a v).dr = s.dr := rfl
@[simp] theorem State.write_e (a : Address) (v : Word) : (s.write a v).e = s.e := rfl
@[simp] theorem State.write_halt (a : Address) (v : Word) : (s.write a v).halt = s.halt := rfl
@[simp] theorem State.write_fault (a : Address) (v : Word) : (s.write a v).fault = s.fault := rfl
@[simp] theorem State.write_t (a : Address) (v : Word) : (s.write a v).t = s.t := rfl
@[simp] theorem State.write_mem (a : Address) (v : Word) : (s.write a v).mem = memWrite s.mem a.toNat v := rfl
@[simp] theorem State.write_cnt (a : Address) (v : Word) : (s.write a v).cnt = s.cnt := rfl

/-! ### tick -/

@[simp] theorem State.tick_pc : (s.tick).pc = s.pc := rfl
@[simp] theorem State.tick_ar : (s.tick).ar = s.ar := rfl
@[simp] theorem State.tick_ir : (s.tick).ir = s.ir := rfl
@[simp] theorem State.tick_ac : (s.tick).ac = s.ac := rfl
@[simp] theorem State.tick_dr : (s.tick).dr = s.dr := rfl
@[simp] theorem State.tick_e : (s.tick).e = s.e := rfl
@[simp] theorem State.tick_halt : (s.tick).halt = s.halt := rfl
@[simp] theorem State.tick_fault : (s.tick).fault = s.fault := rfl
@[simp] theorem State.tick_t : (s.tick).t = s.t := rfl
@[simp] theorem State.tick_mem : (s.tick).mem = s.mem := rfl
@[simp] theorem State.tick_cnt : (s.tick).cnt = { s.cnt with cycles := s.cnt.cycles + 1 } := rfl

/-! ### countRead -/

@[simp] theorem State.countRead_pc : (s.countRead).pc = s.pc := rfl
@[simp] theorem State.countRead_ar : (s.countRead).ar = s.ar := rfl
@[simp] theorem State.countRead_ir : (s.countRead).ir = s.ir := rfl
@[simp] theorem State.countRead_ac : (s.countRead).ac = s.ac := rfl
@[simp] theorem State.countRead_dr : (s.countRead).dr = s.dr := rfl
@[simp] theorem State.countRead_e : (s.countRead).e = s.e := rfl
@[simp] theorem State.countRead_halt : (s.countRead).halt = s.halt := rfl
@[simp] theorem State.countRead_fault : (s.countRead).fault = s.fault := rfl
@[simp] theorem State.countRead_t : (s.countRead).t = s.t := rfl
@[simp] theorem State.countRead_mem : (s.countRead).mem = s.mem := rfl
@[simp] theorem State.countRead_cnt : (s.countRead).cnt = { s.cnt with reads := s.cnt.reads + 1 } := rfl

/-! ### countWrite -/

@[simp] theorem State.countWrite_pc : (s.countWrite).pc = s.pc := rfl
@[simp] theorem State.countWrite_ar : (s.countWrite).ar = s.ar := rfl
@[simp] theorem State.countWrite_ir : (s.countWrite).ir = s.ir := rfl
@[simp] theorem State.countWrite_ac : (s.countWrite).ac = s.ac := rfl
@[simp] theorem State.countWrite_dr : (s.countWrite).dr = s.dr := rfl
@[simp] theorem State.countWrite_e : (s.countWrite).e = s.e := rfl
@[simp] theorem State.countWrite_halt : (s.countWrite).halt = s.halt := rfl
@[simp] theorem State.countWrite_fault : (s.countWrite).fault = s.fault := rfl
@[simp] theorem State.countWrite_t : (s.countWrite).t = s.t := rfl
@[simp] theorem State.countWrite_mem : (s.countWrite).mem = s.mem := rfl
@[simp] theorem State.countWrite_cnt : (s.countWrite).cnt = { s.cnt with writes := s.cnt.writes + 1 } := rfl

/-! ### complete -/

@[simp] theorem State.complete_pc : (s.complete).pc = s.pc := rfl
@[simp] theorem State.complete_ar : (s.complete).ar = s.ar := rfl
@[simp] theorem State.complete_ir : (s.complete).ir = s.ir := rfl
@[simp] theorem State.complete_ac : (s.complete).ac = s.ac := rfl
@[simp] theorem State.complete_dr : (s.complete).dr = s.dr := rfl
@[simp] theorem State.complete_e : (s.complete).e = s.e := rfl
@[simp] theorem State.complete_halt : (s.complete).halt = s.halt := rfl
@[simp] theorem State.complete_fault : (s.complete).fault = s.fault := rfl
@[simp] theorem State.complete_t : (s.complete).t = .t0 := rfl
@[simp] theorem State.complete_mem : (s.complete).mem = s.mem := rfl
@[simp] theorem State.complete_cnt : (s.complete).cnt = { s.cnt with instructions := s.cnt.instructions + 1 } := rfl

/-! ### skip -/

@[simp] theorem State.skip_pc : (s.skip).pc = nextAddress s.pc := rfl
@[simp] theorem State.skip_ar : (s.skip).ar = s.ar := rfl
@[simp] theorem State.skip_ir : (s.skip).ir = s.ir := rfl
@[simp] theorem State.skip_ac : (s.skip).ac = s.ac := rfl
@[simp] theorem State.skip_dr : (s.skip).dr = s.dr := rfl
@[simp] theorem State.skip_e : (s.skip).e = s.e := rfl
@[simp] theorem State.skip_halt : (s.skip).halt = s.halt := rfl
@[simp] theorem State.skip_fault : (s.skip).fault = s.fault := rfl
@[simp] theorem State.skip_t : (s.skip).t = s.t := rfl
@[simp] theorem State.skip_mem : (s.skip).mem = s.mem := rfl
@[simp] theorem State.skip_cnt : (s.skip).cnt = s.cnt := rfl

/-! ### raiseFault -/

@[simp] theorem State.raiseFault_pc : (s.raiseFault).pc = s.pc := rfl
@[simp] theorem State.raiseFault_ar : (s.raiseFault).ar = s.ar := rfl
@[simp] theorem State.raiseFault_ir : (s.raiseFault).ir = s.ir := rfl
@[simp] theorem State.raiseFault_ac : (s.raiseFault).ac = s.ac := rfl
@[simp] theorem State.raiseFault_dr : (s.raiseFault).dr = s.dr := rfl
@[simp] theorem State.raiseFault_e : (s.raiseFault).e = s.e := rfl
@[simp] theorem State.raiseFault_halt : (s.raiseFault).halt = s.halt := rfl
@[simp] theorem State.raiseFault_fault : (s.raiseFault).fault = true := rfl
@[simp] theorem State.raiseFault_t : (s.raiseFault).t = s.t := rfl
@[simp] theorem State.raiseFault_mem : (s.raiseFault).mem = s.mem := rfl
@[simp] theorem State.raiseFault_cnt : (s.raiseFault).cnt = s.cnt := rfl

/-! ### applyIf -/

@[simp] theorem State.applyIf_true (f : State → State) : s.applyIf true f = f s := rfl
@[simp] theorem State.applyIf_false (f : State → State) : s.applyIf false f = s := rfl

/-- A field that the operation leaves alone is left alone whether or not it is applied. -/
theorem State.applyIf_keeps {α : Type} (p : State → α) (b : Bool) (f : State → State) (h : p (f s) = p s) :
    p (s.applyIf b f) = p s := by
  cases b
  · rfl
  · exact h

/-- A conditional skip moves PC by one or not at all. -/
@[simp] theorem State.applyIf_skip_pc (b : Bool) : (s.applyIf b State.skip).pc = if b then nextAddress s.pc else s.pc := by
  cases b <;> rfl

@[simp] theorem State.applyIf_skip_ar (b : Bool) : (s.applyIf b State.skip).ar = s.ar :=
  s.applyIf_keeps State.ar b _ rfl
@[simp] theorem State.applyIf_skip_ir (b : Bool) : (s.applyIf b State.skip).ir = s.ir :=
  s.applyIf_keeps State.ir b _ rfl
@[simp] theorem State.applyIf_skip_ac (b : Bool) : (s.applyIf b State.skip).ac = s.ac :=
  s.applyIf_keeps State.ac b _ rfl
@[simp] theorem State.applyIf_skip_dr (b : Bool) : (s.applyIf b State.skip).dr = s.dr :=
  s.applyIf_keeps State.dr b _ rfl
@[simp] theorem State.applyIf_skip_e (b : Bool) : (s.applyIf b State.skip).e = s.e :=
  s.applyIf_keeps State.e b _ rfl
@[simp] theorem State.applyIf_skip_halt (b : Bool) : (s.applyIf b State.skip).halt = s.halt :=
  s.applyIf_keeps State.halt b _ rfl
@[simp] theorem State.applyIf_skip_fault (b : Bool) : (s.applyIf b State.skip).fault = s.fault :=
  s.applyIf_keeps State.fault b _ rfl
@[simp] theorem State.applyIf_skip_t (b : Bool) : (s.applyIf b State.skip).t = s.t :=
  s.applyIf_keeps State.t b _ rfl
@[simp] theorem State.applyIf_skip_mem (b : Bool) : (s.applyIf b State.skip).mem = s.mem :=
  s.applyIf_keeps State.mem b _ rfl
@[simp] theorem State.applyIf_skip_cnt (b : Bool) : (s.applyIf b State.skip).cnt = s.cnt :=
  s.applyIf_keeps State.cnt b _ rfl

/-- Reading after an update that leaves the memory alone. -/
theorem State.read_of_mem_eq (s' : State) (h : s'.mem = s.mem) (a : Address) : s'.read a = s.read a := by
  unfold State.read
  rw [h]

end Sys2Proof.Machine
end

