-- ==== Sys2Proof/Laws/Microcycle.lean ====
section
/-! SUPPORT. What the register-reference composition can touch, and once and for all what one microcycle can do
(`micro_next_iff`): later proofs cite these and do not unfold the dispatch. -/

namespace Sys2Proof.Machine

/-! ### The register-reference composition (R82, R95) -/

/-- What an operation does when it writes nothing but AC, E, PC and HALT, and keeps a set HALT. -/
structure KeepsForRri (f : State → State) : Prop where
  ar : ∀ s, (f s).ar = s.ar
  ir : ∀ s, (f s).ir = s.ir
  dr : ∀ s, (f s).dr = s.dr
  fault : ∀ s, (f s).fault = s.fault
  t : ∀ s, (f s).t = s.t
  mem : ∀ s, (f s).mem = s.mem
  cnt : ∀ s, (f s).cnt = s.cnt

theorem KeepsForRri.applyIf {f : State → State} (b : Bool) (h : KeepsForRri f) :
    KeepsForRri (State.applyIf b f) := by
  cases b
  · exact ⟨fun _ => rfl, fun _ => rfl, fun _ => rfl, fun _ => rfl, fun _ => rfl, fun _ => rfl, fun _ => rfl⟩
  · exact h

theorem keeps_skipIf (p : State → Bool) : KeepsForRri (fun s => s.applyIf (p s) State.skip) :=
  ⟨fun s => s.applyIf_skip_ar _, fun s => s.applyIf_skip_ir _, fun s => s.applyIf_skip_dr _,
    fun s => s.applyIf_skip_fault _, fun s => s.applyIf_skip_t _, fun s => s.applyIf_skip_mem _,
    fun s => s.applyIf_skip_cnt _⟩

theorem KeepsForRri.comp {f g : State → State} (hf : KeepsForRri f) (hg : KeepsForRri g) :
    KeepsForRri (fun s => g (f s)) :=
  ⟨fun s => (hg.ar _).trans (hf.ar s), fun s => (hg.ir _).trans (hf.ir s), fun s => (hg.dr _).trans (hf.dr s),
    fun s => (hg.fault _).trans (hf.fault s), fun s => (hg.t _).trans (hf.t s), fun s => (hg.mem _).trans (hf.mem s),
    fun s => (hg.cnt _).trans (hf.cnt s)⟩

/-- Every enable set leaves AR, IR, DR, FAULT, T, the memory and the counters alone (R95). -/
theorem execRRI_keeps (en : Enables) : KeepsForRri (execRRI en) := by
  have plain : ∀ f : State → State, f = microCla ∨ f = microCle ∨ f = microCma ∨ f = microCme ∨ f = microCir ∨
      f = microCil ∨ f = microInc ∨ f = microHlt → KeepsForRri f := by
    rintro f (rfl | rfl | rfl | rfl | rfl | rfl | rfl | rfl) <;>
      exact ⟨fun _ => rfl, fun _ => rfl, fun _ => rfl, fun _ => rfl, fun _ => rfl, fun _ => rfl, fun _ => rfl⟩
  have c1 := ((plain microCla (by simp)).applyIf (enabled en .cla)).comp
    ((plain microCle (by simp)).applyIf (enabled en .cle))
  have c2 := (c1.comp ((plain microCma (by simp)).applyIf (enabled en .cma))).comp
    ((plain microCme (by simp)).applyIf (enabled en .cme))
  have c3 := (c2.comp ((plain microCir (by simp)).applyIf (enabled en .cir))).comp
    ((plain microCil (by simp)).applyIf (enabled en .cil))
  have c4 := (c3.comp ((plain microInc (by simp)).applyIf (enabled en .inc))).comp
    ((keeps_skipIf (fun s => acPositive s.ac)).applyIf (enabled en .spa))
  have c5 := (c4.comp ((keeps_skipIf (fun s => acNegative s.ac)).applyIf (enabled en .sna))).comp
    ((keeps_skipIf (fun s => acZero s.ac)).applyIf (enabled en .sza))
  exact (c5.comp ((keeps_skipIf (fun s => eZero s.e)).applyIf (enabled en .sze))).comp
    ((plain microHlt (by simp)).applyIf (enabled en .hlt))

@[simp] theorem execRRI_ar (en : Enables) (s : State) : (execRRI en s).ar = s.ar := (execRRI_keeps en).ar s
@[simp] theorem execRRI_ir (en : Enables) (s : State) : (execRRI en s).ir = s.ir := (execRRI_keeps en).ir s
@[simp] theorem execRRI_dr (en : Enables) (s : State) : (execRRI en s).dr = s.dr := (execRRI_keeps en).dr s
@[simp] theorem execRRI_fault (en : Enables) (s : State) : (execRRI en s).fault = s.fault := (execRRI_keeps en).fault s
@[simp] theorem execRRI_t (en : Enables) (s : State) : (execRRI en s).t = s.t := (execRRI_keeps en).t s
@[simp] theorem execRRI_mem (en : Enables) (s : State) : (execRRI en s).mem = s.mem := (execRRI_keeps en).mem s
@[simp] theorem execRRI_cnt (en : Enables) (s : State) : (execRRI en s).cnt = s.cnt := (execRRI_keeps en).cnt s

/-- HALT after the composition: as before, or set by an enabled HLT (R94). -/
@[simp] theorem execRRI_halt (en : Enables) (s : State) : (execRRI en s).halt = (s.halt || enabled en .hlt) := by
  have keep : ∀ (b : Bool) (f : State → State) (s : State), (∀ s, (f s).halt = s.halt) →
      (s.applyIf b f).halt = s.halt := fun b f s h => s.applyIf_keeps State.halt b f (h s)
  have last : ∀ (b : Bool) (s : State), (s.applyIf b microHlt).halt = (s.halt || b) := by
    intro b s
    cases b <;> simp [microHlt]
  unfold execRRI
  rw [last, keep _ microSze, keep _ microSza, keep _ microSna, keep _ microSpa, keep _ microInc, keep _ microCil,
    keep _ microCir, keep _ microCme, keep _ microCma, keep _ microCle, keep _ microCla]
  all_goals first
    | exact fun _ => rfl
    | exact fun s => s.applyIf_skip_halt _

/-! ### One microcycle -/

/-- The transitions of the block, each with its condition (R60 to R65). -/
inductive MicroStep (s : State) : State → Prop where
  | fetchAddr (ht : s.t = .t0) : MicroStep s (t0FetchAddr s)
  | fetchInstr (ht : s.t = .t1) : MicroStep s (t1FetchInstr s)
  | decode (ht : s.t = .t2) : MicroStep s (t2Decode s)
  | registerRef (ht : s.t = .t3) (en : Enables) (hd : descriptor s.ir = .registerRef en) : MicroStep s (t3Rri en s)
  | address (ht : s.t = .t3) (m : MriOp) (a : Address) (hd : descriptor s.ir = .memoryRef m a) :
    MicroStep s (t3Address a s)
  | unmapped (ht : s.t = .t3) (top : BitVec 4) (hd : descriptor s.ir = .unmapped top) :
    MicroStep s s.tick.raiseFault
  | sta (ht : s.t = .t4) (a : Address) (hd : descriptor s.ir = .memoryRef .sta a) : MicroStep s (t4Sta s)
  | bun (ht : s.t = .t4) (a : Address) (hd : descriptor s.ir = .memoryRef .bun a) : MicroStep s (t4Bun s)
  | bsa (ht : s.t = .t4) (a : Address) (hd : descriptor s.ir = .memoryRef .bsa a) : MicroStep s (t4Bsa s)
  | operand (ht : s.t = .t4) (m : MriOp) (a : Address) (hd : descriptor s.ir = .memoryRef m a)
    (hm : m = .and ∨ m = .add ∨ m = .lda ∨ m = .isz) : MicroStep s (t4ReadOperand s)
  | and (ht : s.t = .t5) (a : Address) (hd : descriptor s.ir = .memoryRef .and a) : MicroStep s (t5And s)
  | add (ht : s.t = .t5) (a : Address) (hd : descriptor s.ir = .memoryRef .add a) : MicroStep s (t5Add s)
  | lda (ht : s.t = .t5) (a : Address) (hd : descriptor s.ir = .memoryRef .lda a) : MicroStep s (t5Lda s)
  | isz (ht : s.t = .t5) (a : Address) (hd : descriptor s.ir = .memoryRef .isz a) : MicroStep s (t5Isz s)

/-- The guard lets a step through exactly when neither stop flag is set (R58). -/
theorem stopped_eq_none (s : State) : stopped s = none ↔ s.halt = false ∧ s.fault = false := by
  unfold stopped
  cases s.halt <;> cases s.fault <;> simp

theorem micro_of_stopped (s : State) (f : Fault) (h : stopped s = some f) : micro s = .fault f := by
  unfold micro
  rw [h]

theorem t4MemAccess_next (s s' : State) (h : t4MemAccess s = .next s') (ht : s.t = .t4) : MicroStep s s' := by
  unfold t4MemAccess at h
  cases hd : descriptor s.ir with
  | registerRef en => rw [hd] at h; cases h
  | unmapped top => rw [hd] at h; cases h
  | memoryRef m a =>
    rw [hd] at h
    cases m <;> cases h
    · exact .operand ht _ a hd (by simp)
    · exact .operand ht _ a hd (by simp)
    · exact .operand ht _ a hd (by simp)
    · exact .sta ht a hd
    · exact .bun ht a hd
    · exact .bsa ht a hd
    · exact .operand ht _ a hd (by simp)

theorem t5AluCommit_next (s s' : State) (h : t5AluCommit s = .next s') (ht : s.t = .t5) : MicroStep s s' := by
  unfold t5AluCommit at h
  cases hd : descriptor s.ir with
  | registerRef en => rw [hd] at h; cases h
  | unmapped top => rw [hd] at h; cases h
  | memoryRef m a =>
    rw [hd] at h
    cases m <;> cases h
    · exact .and ht a hd
    · exact .add ht a hd
    · exact .lda ht a hd
    · exact .isz ht a hd

theorem t3AddrOrExec_step (s : State) (ht : s.t = .t3) : MicroStep s (t3AddrOrExec s) := by
  unfold t3AddrOrExec
  cases hd : descriptor s.ir with
  | registerRef en => exact .registerRef ht en hd
  | memoryRef m a => exact .address ht m a hd
  | unmapped top => exact .unmapped ht top hd

/-- What one microcycle can do: nothing while a stop flag is set, else exactly one of the transitions. -/
theorem micro_next_iff (s s' : State) :
    micro s = .next s' ↔ s.halt = false ∧ s.fault = false ∧ MicroStep s s' := by
  constructor
  · intro h
    cases hs : stopped s with
    | some f =>
      rw [micro_of_stopped s f hs] at h
      cases h
    | none =>
      obtain ⟨h1, h2⟩ := (stopped_eq_none s).1 hs
      refine ⟨h1, h2, ?_⟩
      unfold micro at h
      rw [hs] at h
      cases ht : s.t with
      | t0 => simp only [ht] at h; cases h; exact .fetchAddr ht
      | t1 => simp only [ht] at h; cases h; exact .fetchInstr ht
      | t2 => simp only [ht] at h; cases h; exact .decode ht
      | t3 => simp only [ht] at h; cases h; exact t3AddrOrExec_step s ht
      | t4 => simp only [ht] at h; exact t4MemAccess_next s s' h ht
      | t5 => simp only [ht] at h; exact t5AluCommit_next s s' h ht
  · rintro ⟨h1, h2, h⟩
    have hs := (stopped_eq_none s).2 ⟨h1, h2⟩
    unfold micro
    rw [hs]
    cases h with
    | fetchAddr ht => simp only [ht]
    | fetchInstr ht => simp only [ht]
    | decode ht => simp only [ht]
    | registerRef ht en hd => simp only [ht, t3AddrOrExec, hd]
    | address ht m a hd => simp only [ht, t3AddrOrExec, hd]
    | unmapped ht top hd => simp only [ht, t3AddrOrExec, hd]; rfl
    | sta ht a hd => simp only [ht, t4MemAccess, hd]
    | bun ht a hd => simp only [ht, t4MemAccess, hd]
    | bsa ht a hd => simp only [ht, t4MemAccess, hd]
    | operand ht m a hd hm => rcases hm with rfl | rfl | rfl | rfl <;> simp only [ht, t4MemAccess, hd]
    | and ht a hd => simp only [ht, t5AluCommit, hd]
    | add ht a hd => simp only [ht, t5AluCommit, hd]
    | lda ht a hd => simp only [ht, t5AluCommit, hd]
    | isz ht a hd => simp only [ht, t5AluCommit, hd]

/-- A microcycle is refused by nothing: the only refusal is the configuration's (R101). -/
theorem micro_not_refused (s : State) (r : Refusal) : micro s ≠ .refused r := by
  intro h
  unfold micro t4MemAccess t5AluCommit at h
  repeat' (split at h)
  all_goals cases h

end Sys2Proof.Machine
end

