-- ==== Sys2Proof/Laws/Step.lean ====
section
/-! SUPPORT. What step is, case by case: callers cite these and do not unfold it. -/

namespace Sys2Proof.Machine

/-- The hardware's configuration asks for no indirection, so it is never refused (R51). -/
theorem step_eq (s : State) : step s = stepWith Config.hardware s := rfl

theorem step_of_stopped (s : State) (f : Fault) (h : stopped s = some f) : step s = .fault f := by
  unfold step stepWith
  rw [h]
  rfl

/-- Up to T3, a step is the rest of the fetch, then the instruction (R60 to R63). -/
theorem step_of_fetching (s : State) (h1 : s.halt = false) (h2 : s.fault = false)
    (ht : s.t = .t0 ∨ s.t = .t1 ∨ s.t = .t2 ∨ s.t = .t3) :
    step s = exec (decode (fetchDecode s).ir) (fetchDecode s) := by
  unfold step stepWith
  rw [(stopped_eq_none s).2 ⟨h1, h2⟩]
  rcases ht with ht | ht | ht | ht <;> (simp only [ht]; rfl)

theorem step_of_t4 (s : State) (h1 : s.halt = false) (h2 : s.fault = false) (ht : s.t = .t4) :
    step s = finish 2 s := by
  unfold step stepWith
  rw [(stopped_eq_none s).2 ⟨h1, h2⟩]
  simp only [ht]
  rfl

theorem step_of_t5 (s : State) (h1 : s.halt = false) (h2 : s.fault = false) (ht : s.t = .t5) :
    step s = finish 1 s := by
  unfold step stepWith
  rw [(stopped_eq_none s).2 ⟨h1, h2⟩]
  simp only [ht]
  rfl

/-- The whole fetch in one record (R60, R61, R62). -/
theorem fetchDecode_t0 (s : State) (ht : s.t = .t0) :
    fetchDecode s =
      { s with
        ar := s.pc, ir := s.read s.pc, pc := nextAddress s.pc, t := .t3
        cnt := { s.cnt with cycles := s.cnt.cycles + 1 + 1 + 1, reads := s.cnt.reads + 1 } } := by
  unfold fetchDecode
  simp only [ht]
  rfl

end Sys2Proof.Machine
end

