-- ==== Sys2Proof/Laws/Commands.lean ====
section
/-! SUPPORT. Each command of this hardware as one equation, and the guard of the two steps. -/

namespace Sys2Proof.Machine

@[simp] theorem runCommand_stepMicro (s : State) : runCommand .stepMicro s = stepMicro s := rfl
@[simp] theorem runCommand_stepInstruction (s : State) : runCommand .stepInstruction s = stepInstruction s := rfl
@[simp] theorem runCommand_reset (s : State) : runCommand .reset s = (.okReset, State.reset) := rfl
@[simp] theorem runCommand_loadImage (image : Image) (s : State) :
    runCommand (.loadImage image) s = (.okLoad (imageDropped image), loadedState image) := rfl
@[simp] theorem runCommand_read (q : Query) (s : State) : runCommand (.read q) s = (.okRead (readValue s q), s) := rfl

theorem stepMicro_of_stopped (s : State) (f : Fault) (h : stopped s = some f) :
    stepMicro s = (stopMicroOutcome s f, s) := by
  unfold stepMicro
  rw [micro_of_stopped s f h]

theorem stepInstruction_of_stopped (s : State) (f : Fault) (h : stopped s = some f) :
    stepInstruction s = (stopOutcome f, s) := by
  unfold stepInstruction
  rw [h]

/-- A running block's stepInstruction is the loop (R70). -/
theorem stepInstruction_of_running (s : State) (h1 : s.halt = false) (h2 : s.fault = false) :
    stepInstruction s = stepLoop 6 s [] 0 := by
  unfold stepInstruction
  rw [(stopped_eq_none s).2 ⟨h1, h2⟩]

/-- What stepMicro returns where its microcycle answers a state (R72, R100). -/
theorem stepMicro_of_next (s s' : State) (h : micro s = .next s') :
    stepMicro s =
      if s'.fault then (.faultedMicro .unmappedOpcode s'.ir s'.ar [] (observe s s'), s')
      else (.okMicro (changedRegs s s') (observe s s'), s') := by
  unfold stepMicro
  rw [h]

/-- Whatever its outcome, a stepMicro that performs a microcycle leaves the microcycle's state. -/
theorem stepMicro_state (s s' : State) (h : micro s = .next s') : (stepMicro s).2 = s' := by
  rw [stepMicro_of_next s s' h]
  split <;> rfl

@[simp] theorem observe_outputs (s s' : State) : (observe s s').outputs = s'.outputs := rfl
@[simp] theorem observe_performed (s s' : State) : (observe s s').performed = some s.t := rfl
@[simp] theorem observe_decoded (s s' : State) : (observe s s').decoded = decodedAt s.t s.ir := rfl
@[simp] theorem observeStopped_outputs (s : State) : (observeStopped s).outputs = s.outputs := rfl
@[simp] theorem observeStopped_performed (s : State) : (observeStopped s).performed = none := rfl
@[simp] theorem observeStopped_decoded (s : State) : (observeStopped s).decoded = none := rfl

theorem mem_changedRegs (s s' : State) (r : Reg) : r ∈ changedRegs s s' ↔ s.reg r ≠ s'.reg r := by
  have hall : r ∈ Reg.all := by cases r <;> decide
  simp [changedRegs, hall]

theorem mem_unionRegs (a b : List Reg) (r : Reg) : r ∈ unionRegs a b ↔ r ∈ a ∨ r ∈ b := by
  have hall : r ∈ Reg.all := by cases r <;> decide
  simp [unionRegs, hall]

theorem runCommands_append (a b : List Command) (s : State) :
    (runCommands (a ++ b) s).2 = (runCommands b (runCommands a s).2).2 := by
  induction a generalizing s with
  | nil => rfl
  | cons c rest ih => exact ih _

end Sys2Proof.Machine
end

