-- ==== Sys2Proof/Laws/Flags.lean ====
section
/-! SUPPORT. What the flag computations say, in numbers. -/

namespace Sys2Proof.Machine

@[simp] theorem addWord_toNat (a b : Word) : (addWord a b).toNat = (a.toNat + b.toNat) % 65536 := by
  simp [addWord, addExact]

theorem addCarry_iff (a b : Word) : addCarry a b = true ↔ 65535 < a.toNat + b.toNat := by
  unfold addCarry addExact
  exact decide_eq_true_iff

theorem iszSkips_iff (dr : Word) : iszSkips dr = true ↔ dr = 0xFFFF#16 := by
  unfold iszSkips iszWord
  rw [beq_iff_eq]
  constructor
  · intro h
    bv_omega
  · rintro rfl
    rfl

theorem acZero_iff (ac : Word) : acZero ac = true ↔ ac = 0x0000#16 := by
  simp [acZero]

theorem acPositive_eq_not_acNegative (ac : Word) : acPositive ac = !acNegative ac := rfl

@[simp] theorem cirWord_getLsbD (ac : Word) (e : Bool) (i : Nat) :
    (cirWord ac e).getLsbD i = if i = 15 then e else decide (i < 15) && ac.getLsbD (1 + i) := by
  rw [cirWord, BitVec.getLsbD_cons, BitVec.getLsbD_extractLsb']

@[simp] theorem cilWord_getLsbD (ac : Word) (e : Bool) (i : Nat) :
    (cilWord ac e).getLsbD i = if i = 0 then e else decide (i - 1 < 15) && ac.getLsbD (i - 1) := by
  rw [cilWord, BitVec.getLsbD_concat, BitVec.getLsbD_extractLsb', Nat.zero_add]

end Sys2Proof.Machine
end

