-- ==== Sys2Proof/Laws/PerInstr.lean ====
section
/-! SUPPORT. What holds of every instruction as syntax, one lemma per constructor. Family EncodedDescriptor: the word of
a well-formed instruction has the descriptor (R52) that the instruction's own row gives. -/

namespace Sys2Proof.Laws.EncodedDescriptor

/-- The descriptor of an instruction's row (R45, R46, R48, R50). -/
def expected : Instr → OperationDescriptor
  | .and a => .memoryRef .and a
  | .add a => .memoryRef .add a
  | .lda a => .memoryRef .lda a
  | .sta a => .memoryRef .sta a
  | .bun a => .memoryRef .bun a
  | .bsa a => .memoryRef .bsa a
  | .isz a => .memoryRef .isz a
  | .cla => .registerRef (canonicalBit .cla)
  | .cle => .registerRef (canonicalBit .cle)
  | .cma => .registerRef (canonicalBit .cma)
  | .cme => .registerRef (canonicalBit .cme)
  | .cir => .registerRef (canonicalBit .cir)
  | .cil => .registerRef (canonicalBit .cil)
  | .inc => .registerRef (canonicalBit .inc)
  | .spa => .registerRef (canonicalBit .spa)
  | .sna => .registerRef (canonicalBit .sna)
  | .sza => .registerRef (canonicalBit .sza)
  | .sze => .registerRef (canonicalBit .sze)
  | .hlt => .registerRef (canonicalBit .hlt)
  | .rri en => .registerRef en
  | .nop => .registerRef 0#12
  | .unmapped w => .unmapped (opcodeTop w)

def Statement (i : Instr) : Prop := i.wellFormed = true → descriptor (encode i) = expected i

theorem and (a : Address) : Statement (.and a) := fun _ => descriptor_mriWord .and a
theorem add (a : Address) : Statement (.add a) := fun _ => descriptor_mriWord .add a
theorem lda (a : Address) : Statement (.lda a) := fun _ => descriptor_mriWord .lda a
theorem sta (a : Address) : Statement (.sta a) := fun _ => descriptor_mriWord .sta a
theorem bun (a : Address) : Statement (.bun a) := fun _ => descriptor_mriWord .bun a
theorem bsa (a : Address) : Statement (.bsa a) := fun _ => descriptor_mriWord .bsa a
theorem isz (a : Address) : Statement (.isz a) := fun _ => descriptor_mriWord .isz a
theorem cla : Statement .cla := fun _ => descriptor_rriWord (canonicalBit .cla)
theorem cle : Statement .cle := fun _ => descriptor_rriWord (canonicalBit .cle)
theorem cma : Statement .cma := fun _ => descriptor_rriWord (canonicalBit .cma)
theorem cme : Statement .cme := fun _ => descriptor_rriWord (canonicalBit .cme)
theorem cir : Statement .cir := fun _ => descriptor_rriWord (canonicalBit .cir)
theorem cil : Statement .cil := fun _ => descriptor_rriWord (canonicalBit .cil)
theorem inc : Statement .inc := fun _ => descriptor_rriWord (canonicalBit .inc)
theorem spa : Statement .spa := fun _ => descriptor_rriWord (canonicalBit .spa)
theorem sna : Statement .sna := fun _ => descriptor_rriWord (canonicalBit .sna)
theorem sza : Statement .sza := fun _ => descriptor_rriWord (canonicalBit .sza)
theorem sze : Statement .sze := fun _ => descriptor_rriWord (canonicalBit .sze)
theorem hlt : Statement .hlt := fun _ => descriptor_rriWord (canonicalBit .hlt)
theorem rri (enables : Enables) : Statement (.rri enables) := fun _ => descriptor_rriWord enables
theorem nop : Statement .nop := fun _ => descriptor_rriWord 0#12
theorem unmapped (word : Word) : Statement (.unmapped word) := fun h => descriptor_unmapped word h

end Sys2Proof.Laws.EncodedDescriptor
end

