-- ==== Sys2Proof/Laws/RegisterReference.lean ====
section
/-! SUPPORT. Each micro-operation under its enable bit, as one record: rewriting with the twelve of them runs
execRRI symbolically. -/

namespace Sys2Proof.Machine

variable (b : Bool) (s : State)

theorem applyIf_microCla : s.applyIf b microCla = { s with ac := if b then 0x0000#16 else s.ac } := by
  cases b <;> rfl

theorem applyIf_microCle : s.applyIf b microCle = { s with e := if b then false else s.e } := by
  cases b <;> rfl

theorem applyIf_microCma : s.applyIf b microCma = { s with ac := if b then ~~~s.ac else s.ac } := by
  cases b <;> rfl

theorem applyIf_microCme : s.applyIf b microCme = { s with e := if b then !s.e else s.e } := by
  cases b <;> rfl

theorem applyIf_microCir : s.applyIf b microCir =
    { s with ac := if b then cirWord s.ac s.e else s.ac, e := if b then cirCarry s.ac else s.e } := by
  cases b <;> rfl

theorem applyIf_microCil : s.applyIf b microCil =
    { s with ac := if b then cilWord s.ac s.e else s.ac, e := if b then cilCarry s.ac else s.e } := by
  cases b <;> rfl

theorem applyIf_microInc : s.applyIf b microInc = { s with ac := if b then s.ac + 1#16 else s.ac } := by
  cases b <;> rfl

/-- A skip under its enable bit and its condition. -/
theorem applyIf_skipIf (c : Bool) : s.applyIf b (fun x => x.applyIf c State.skip) =
    { s with pc := if b && c then nextAddress s.pc else s.pc } := by
  cases b <;> cases c <;> rfl

theorem applyIf_microSpa : s.applyIf b microSpa =
    { s with pc := if b && acPositive s.ac then nextAddress s.pc else s.pc } := by
  cases b
  · rfl
  · exact applyIf_skipIf true s (acPositive s.ac)

theorem applyIf_microSna : s.applyIf b microSna =
    { s with pc := if b && acNegative s.ac then nextAddress s.pc else s.pc } := by
  cases b
  · rfl
  · exact applyIf_skipIf true s (acNegative s.ac)

theorem applyIf_microSza : s.applyIf b microSza =
    { s with pc := if b && acZero s.ac then nextAddress s.pc else s.pc } := by
  cases b
  · rfl
  · exact applyIf_skipIf true s (acZero s.ac)

theorem applyIf_microSze : s.applyIf b microSze =
    { s with pc := if b && eZero s.e then nextAddress s.pc else s.pc } := by
  cases b
  · rfl
  · exact applyIf_skipIf true s (eZero s.e)

theorem applyIf_microHlt : s.applyIf b microHlt = { s with halt := s.halt || b } := by
  cases b
  · simp
  · simp [microHlt]

end Sys2Proof.Machine
end

