-- ==== Sys2Proof/Laws/Run.lean ====
section
/-! SUPPORT. Runs of the machine, one step at a time. -/

namespace Sys2Proof.Machine

theorem run_next (M : Host.Core) (k : Nat) (s s' : M.State) (h : M.step s = .next s') :
    M.run (k + 1) s = M.run k s' := by
  rw [Host.Core.run, h]

theorem run_fault (M : Host.Core) (k : Nat) (s : M.State) (f : M.Fault) (h : M.step s = .fault f) :
    M.run (k + 1) s = .fault f := by
  rw [Host.Core.run, h]

/-- A run goes on from the state of a step that answers one. -/
theorem core_run_next (k : Nat) (s s' : State) (h : step s = .next s') :
    Sys2Proof.core.run (k + 1) s = Sys2Proof.core.run k s' :=
  run_next Sys2Proof.core k s s' h

/-- A run ends at a step that faults. -/
theorem core_run_fault (k : Nat) (s : State) (f : Fault) (h : step s = .fault f) :
    Sys2Proof.core.run (k + 1) s = .fault f :=
  run_fault Sys2Proof.core k s f h

end Sys2Proof.Machine
end

