-- ==== Sys2Proof/Laws/Safety.lean ====
section
/-! SUPPORT. The terms of Safety.lean: the states stepMicro commands leave, and what a microcycle does to memory. -/

namespace Sys2Proof.Machine

@[simp] theorem afterMicros_zero (s : State) : afterMicros 0 s = s := rfl

theorem afterMicros_succ (k : Nat) (s : State) : afterMicros (k + 1) s = afterMicros k (stepMicro s).2 := rfl

/-- Where a microcycle is performed, the commands after it start from its state. -/
theorem afterMicros_succ_of_next (k : Nat) (s s' : State) (h : micro s = .next s') :
    afterMicros (k + 1) s = afterMicros k s' := by
  rw [afterMicros_succ, stepMicro_state s s' h]

/-- What a microcycle does to memory, once and for all: the store of `microStore` and nothing else (R29, R30). -/
theorem micro_mem (s s' : State) (h : micro s = .next s') :
    s'.mem = match microStore s with
      | some (b, v) => memWrite s.mem b.toNat v
      | none => s.mem := by
  obtain ⟨_, _, hs⟩ := (micro_next_iff s s').1 h
  cases hs with
  | fetchAddr ht => simp [microStore, ht, t0FetchAddr]
  | fetchInstr ht => simp [microStore, ht, t1FetchInstr]
  | decode ht => simp [microStore, ht, t2Decode]
  | registerRef ht en hd => simp [microStore, ht, t3Rri]
  | address ht m a hd => simp [microStore, ht, t3Address]
  | unmapped ht top hd => simp [microStore, ht]
  | sta ht a hd => simp [microStore, ht, hd, t4Sta, State.write]
  | bun ht a hd => simp [microStore, ht, hd, t4Bun]
  | bsa ht a hd => simp [microStore, ht, hd, t4Bsa, State.write]
  | operand ht m a hd hm => rcases hm with rfl | rfl | rfl | rfl <;> simp [microStore, ht, hd, t4ReadOperand]
  | and ht a hd => simp [microStore, ht, hd, t5And]
  | add ht a hd => simp [microStore, ht, hd, t5Add]
  | lda ht a hd => simp [microStore, ht, hd, t5Lda]
  | isz ht a hd => simp [microStore, ht, hd, t5Isz, State.write]

/-- A microcycle that stores leaves its value at its address. -/
theorem micro_read_stored (s s' : State) (b : Address) (v : Word) (hw : s.mem.wf = true) (h : micro s = .next s')
    (hb : microStore s = some (b, v)) : s'.read b = v := by
  unfold State.read
  rw [micro_mem s s' h, hb]
  exact memRead_write_same s.mem b.toNat v hw

/-- A microcycle that does not store at an address leaves its word. -/
theorem micro_read_other (s s' : State) (b : Address) (h : micro s = .next s')
    (hb : ∀ w, microStore s ≠ some (b, w)) : s'.read b = s.read b := by
  unfold State.read
  rw [micro_mem s s' h]
  cases hm : microStore s with
  | none => rfl
  | some p =>
    have hne : b.toNat ≠ p.1.toNat := fun heq =>
      hb p.2 (hm.trans (by rw [BitVec.eq_of_toNat_eq heq]))
    exact memRead_write_other s.mem p.1.toNat b.toNat p.2 hne

end Sys2Proof.Machine
end

