-- ==== Sys2Proof/Tests/Slice0.lean ====
section
/-! SUPPORT. The model's own tests: ill-formed terms refused, words written out from the encodings, one step each on
the vectors of spec/95_test_vectors.md (the row's id in the comment), and a witness of the hypotheses of every
statement that has some. -/

namespace Sys2Proof.Tests

open Sys2Proof.Machine

/-! ### Helpers -/

/-- A running state at T0, with the given PC, AC, E and memory, all else as after reset. -/
def at0 (pc : Address) (ac : Word) (e : Bool) (mem : Memory) : State :=
  { State.reset with pc := pc, ac := ac, e := e, mem := mem }

/-- The same at another microcycle, with AR, IR and DR. -/
def atT (t : MicrocycleState) (pc ar : Address) (ir dr : Word) (mem : Memory) : State :=
  { State.reset with t := t, pc := pc, ar := ar, ir := ir, dr := dr, mem := mem }

/-- Does the outcome hold a next state of which the test is true? -/
def nextIs (o : Host.Outcome State Fault Refusal) (p : State → Bool) : Bool :=
  match o with
  | .next s => p s
  | .fault _ => false
  | .refused _ => false

/-! ### WellFormed: one ill-formed term for each check -/

theorem test_rri_with_no_bit_is_ill_formed : (Instr.rri 0x000#12).wellFormed = false := by decide
theorem test_rri_with_one_bit_is_ill_formed : (Instr.rri 0x020#12).wellFormed = false := by decide
theorem test_mapped_word_is_no_unmapped : (Instr.unmapped 0x7001#16).wellFormed = false := by decide
theorem test_rri_with_two_bits_is_well_formed : (Instr.rri 0x220#12).wellFormed = true := by decide

/-! ### Decoding: a word for every constructor, from R46, R48, R50 -/

/-- 0000 0000 0001 0000 and so on: opcode N, then the address. -/
theorem test_decode_memory_reference :
    decode 0b0000000000010000#16 = .and 0x010#12 ∧ decode 0b0001101010111100#16 = .add 0xABC#12 ∧
    decode 0b0010000000000101#16 = .lda 0x005#12 ∧ decode 0b0011000000100000#16 = .sta 0x020#12 ∧
    decode 0b0100000000000101#16 = .bun 0x005#12 ∧ decode 0b0101000100000000#16 = .bsa 0x100#12 ∧
    decode 0b0110111111111111#16 = .isz 0xFFF#12 := by decide

/-- 0111, then the enable bit: CLA is bit 11, HLT is bit 0. -/
theorem test_decode_register_reference :
    decode 0b0111100000000000#16 = .cla ∧ decode 0b0111010000000000#16 = .cle ∧
    decode 0b0111001000000000#16 = .cma ∧ decode 0b0111000100000000#16 = .cme ∧
    decode 0b0111000010000000#16 = .cir ∧ decode 0b0111000001000000#16 = .cil ∧
    decode 0b0111000000100000#16 = .inc ∧ decode 0b0111000000010000#16 = .spa ∧
    decode 0b0111000000001000#16 = .sna ∧ decode 0b0111000000000100#16 = .sza ∧
    decode 0b0111000000000010#16 = .sze ∧ decode 0b0111000000000001#16 = .hlt := by decide

theorem test_decode_combination_nop_unmapped :
    decode 0b0111001000100000#16 = .rri 0x220#12 ∧ decode 0b0111000000000000#16 = .nop ∧
    decode 0b1001000000000001#16 = .unmapped 0x9001#16 ∧ decode 0xFFFF#16 = .unmapped 0xFFFF#16 := by decide

theorem test_encode :
    encode (.bsa 0x100#12) = 0x5100#16 ∧ encode .cle = 0x7400#16 ∧ encode (.rri 0xFFF#12) = 0x7FFF#16 ∧
    encode .nop = 0x7000#16 := by decide

theorem test_table_word :
    decodeTableWord 16 0x2005 = some (.lda 0x005#12) ∧ decodeTableWord 16 0x10000 = none := by decide

/-- R54's own examples. -/
theorem test_assembly :
    assemble (.mri .bun 0x005#12) = 0x4005#16 ∧ disassemble 0x7220#16 = .micro [.cma, .inc] ∧
    disassemble 0x9001#16 = .raw 0x9001#16 := by decide

/-! ### Memory -/

theorem test_write_zero_removes : memWrite [(3, 7#16), (5, 1#16)] 5 0#16 = [(3, 7#16)] := by decide
theorem test_write_keeps_order : memWrite [(3, 7#16)] 1 2#16 = [(1, 2#16), (3, 7#16)] := by decide
theorem test_ill_formed_memory : Memory.wf [(3, 7#16), (3, 1#16)] = false ∧ Memory.wf [(3, 0#16)] = false ∧
    Memory.wf [(4096, 1#16)] = false := by decide

/-! ### The sequencer: spec/95 section 2.1 -/

/-- S1. -/
theorem test_t0 : nextIs (micro (at0 0x123#12 0#16 false [])) (fun s =>
    s.ar == 0x123#12 && s.t == .t1 && s.cnt.cycles == 1) = true := by decide
/-- S3: the PC wraps. -/
theorem test_t1_wraps : nextIs (micro (atT .t1 0xFFF#12 0xFFF#12 0#16 0#16 [(0xFFF, 0xABCD#16)])) (fun s =>
    s.ir == 0xABCD#16 && s.pc == 0x000#12 && s.cnt.reads == 1 && s.t == .t2) = true := by decide
/-- S5. -/
theorem test_t3_address : nextIs (micro (atT .t3 0x011#12 0x010#12 0x2ABC#16 0#16 [])) (fun s =>
    s.ar == 0xABC#12 && s.t == .t4) = true := by decide
/-- S6: FAULTED(UnmappedOpcode, 8000, 010). -/
theorem test_t3_unmapped :
    (stepMicro (atT .t3 0x011#12 0x010#12 0x8000#16 0#16 [])).1 =
      .faultedMicro .unmappedOpcode 0x8000#16 0x010#12 []
        ⟨⟨⟨0x011#12, 0x010#12, 0x8000#16, 0#16, 0#16, false⟩, ⟨1, 0, 0, 0⟩, false, true⟩, some .t3,
          some (.unmapped 0x8#4)⟩ ∧
    (stepMicro (atT .t3 0x011#12 0x010#12 0x8000#16 0#16 [])).2.fault = true := by decide
/-- S10: stepInstruction from T2 finishes the instruction in four microcycles. -/
theorem test_resume : (stepInstruction (atT .t2 0x001#12 0x000#12 0x2005#16 0#16 [(5, 0x1234#16)])).1 =
    .okInstruction [.ar, .ac, .dr] 4 := by decide
/-- S11: a fresh block at F123. -/
theorem test_unmapped_from_t0 : (stepInstruction (at0 0#12 0#16 false [(0, 0xF123#16)])).1 =
    .faulted .unmappedOpcode 0xF123#16 0x000#12 [.pc, .ir] 4 := by decide
/-- P5, si 2: the FAULTED of stepInstruction carries what the earlier microcycles changed. -/
theorem test_unmapped_second_instruction :
    (stepInstruction { at0 1#12 1#16 false [(0, 0x7020#16), (1, 0x9001#16)] with
      ir := 0x7020#16, cnt := ⟨4, 1, 1, 0⟩ }).1 =
    .faulted .unmappedOpcode 0x9001#16 0x001#12 [.pc, .ar, .ir] 4 := by decide
/-- L1-6, first row: the changed set and the count. -/
theorem test_scenario_a : (stepInstruction (at0 0#12 0#16 false [(0, 0x2005#16), (1, 0x7001#16), (5, 0x1234#16)])).1 =
    .okInstruction [.pc, .ar, .ir, .ac, .dr] 6 := by decide
/-- L1-2 and its derived addition. -/
theorem test_load_image :
    imageMemory [(0, 0x7001), (0x1000, 0x1234), (2, 0x10000)] = [(0, 0x7001#16)] ∧
    imageDropped [(0, 0x7001), (0x1000, 0x1234), (2, 0x10000)] =
      [⟨0x1000, 0x1234, .invalidAddress⟩, ⟨2, 0x10000, .malformedWord⟩] := by decide
/-- A placed word runs as the first instruction after reset. -/
theorem test_fetch_word : nextIs (step (State.reset.withFetchWord 16 0x7020)) (fun s =>
    s.ac == 1#16 && s.pc == 1#12 && s.ir == 0x7020#16) = true := by decide

/-! ### One instruction each: spec/95 sections 2.2 and 2.3 -/

/-- M1. -/
theorem test_and : nextIs (step (at0 0x000#12 0xF0F0#16 true [(0x000, 0x0010#16), (0x010, 0x3C3C#16)]))
    (fun s => s.ac == 0x3030#16 && s.dr == 0x3C3C#16 && s.e && s.cnt == ⟨6, 1, 2, 0⟩) = true := by decide
/-- M3: the old E is not added, and is cleared. -/
theorem test_add : nextIs (step (at0 0x000#12 0x1234#16 true [(0x000, 0x1010#16), (0x010, 0x1111#16)]))
    (fun s => s.ac == 0x2345#16 && !s.e) = true := by decide
/-- M6. -/
theorem test_add_carry : nextIs (step (at0 0x000#12 0xFFFF#16 false [(0x000, 0x1010#16), (0x010, 0xFFFF#16)]))
    (fun s => s.ac == 0xFFFE#16 && s.e) = true := by decide
/-- M7. -/
theorem test_lda : nextIs (step (at0 0x000#12 0x0000#16 true [(0x000, 0x2010#16), (0x010, 0x8001#16)]))
    (fun s => s.ac == 0x8001#16 && s.dr == 0x8001#16 && s.e) = true := by decide
/-- M8. -/
theorem test_lda_own_word : nextIs (step (at0 0x010#12 0x0000#16 false [(0x010, 0x2010#16)]))
    (fun s => s.ac == 0x2010#16) = true := by decide
/-- M9. -/
theorem test_sta : nextIs (step (at0 0x000#12 0xBEEF#16 false [(0x000, 0x3020#16)]))
    (fun s => s.read 0x020#12 == 0xBEEF#16 && s.dr == 0x0000#16 && s.cnt == ⟨5, 1, 1, 1⟩) = true := by decide
/-- M11. -/
theorem test_bun : nextIs (step (at0 0x010#12 0x0000#16 false [(0x010, 0x4ABC#16)]))
    (fun s => s.pc == 0xABC#12 && s.ar == 0xABC#12 && s.cnt == ⟨5, 1, 1, 0⟩) = true := by decide
/-- M13: the write is not counted. -/
theorem test_bsa : nextIs (step (at0 0x001#12 0x0000#16 false [(0x001, 0x5100#16)]))
    (fun s => s.read 0x100#12 == 0x0002#16 && s.pc == 0x101#12 && s.cnt == ⟨5, 1, 1, 0⟩) = true := by decide
/-- M14. -/
theorem test_bsa_wraps : nextIs (step (at0 0x010#12 0x0000#16 false [(0x010, 0x5FFF#16)]))
    (fun s => s.read 0xFFF#12 == 0x0011#16 && s.pc == 0x000#12) = true := by decide
/-- M18: the skip wraps. -/
theorem test_isz_skips : nextIs (step (at0 0xFFE#12 0x0000#16 false [(0x040, 0xFFFF#16), (0xFFE, 0x6040#16)]))
    (fun s => s.read 0x040#12 == 0x0000#16 && s.dr == 0xFFFF#16 && s.pc == 0x000#12 && s.cnt == ⟨6, 1, 2, 1⟩) = true := by decide
/-- M19. -/
theorem test_isz_own_word : nextIs (step (at0 0x030#12 0x0000#16 false [(0x030, 0x6030#16)]))
    (fun s => s.read 0x030#12 == 0x6031#16 && s.dr == 0x6030#16 && s.pc == 0x031#12) = true := by decide
/-- RR1. -/
theorem test_cla : nextIs (step (at0 0x010#12 0x1234#16 true [(0x010, 0x7800#16)]))
    (fun s => s.ac == 0x0000#16 && s.e && s.pc == 0x011#12 && s.ar == 0x010#12) = true := by decide
/-- RR2. -/
theorem test_cle : nextIs (step (at0 0x010#12 0x1234#16 true [(0x010, 0x7400#16)]))
    (fun s => s.ac == 0x1234#16 && !s.e) = true := by decide
/-- RR3. -/
theorem test_cma : nextIs (step (at0 0x010#12 0x00FF#16 false [(0x010, 0x7200#16)]))
    (fun s => s.ac == 0xFF00#16 && !s.e) = true := by decide
/-- RR5. -/
theorem test_cme : nextIs (step (at0 0x010#12 0x0007#16 false [(0x010, 0x7100#16)]))
    (fun s => s.ac == 0x0007#16 && s.e) = true := by decide
/-- RR7. -/
theorem test_cir : nextIs (step (at0 0x010#12 0x8000#16 true [(0x010, 0x7080#16)]))
    (fun s => s.ac == 0xC000#16 && !s.e) = true := by decide
/-- RR8. -/
theorem test_cir_carry : nextIs (step (at0 0x010#12 0xFFFF#16 false [(0x010, 0x7080#16)]))
    (fun s => s.ac == 0x7FFF#16 && s.e) = true := by decide
/-- RR9. -/
theorem test_cil : nextIs (step (at0 0x010#12 0x8000#16 false [(0x010, 0x7040#16)]))
    (fun s => s.ac == 0x0000#16 && s.e) = true := by decide
/-- RR10. -/
theorem test_cil_carry : nextIs (step (at0 0x010#12 0x0001#16 true [(0x010, 0x7040#16)]))
    (fun s => s.ac == 0x0003#16 && !s.e) = true := by decide
/-- RR12: E is not set by the wrap. -/
theorem test_inc : nextIs (step (at0 0x010#12 0xFFFF#16 false [(0x010, 0x7020#16)]))
    (fun s => s.ac == 0x0000#16 && !s.e) = true := by decide
/-- RR14: zero counts as positive. -/
theorem test_spa : nextIs (step (at0 0x010#12 0x0000#16 false [(0x010, 0x7010#16)]))
    (fun s => s.pc == 0x012#12) = true := by decide
/-- RR36. -/
theorem test_spa_wraps : nextIs (step (at0 0xFFE#12 0x0000#16 false [(0xFFE, 0x7010#16)]))
    (fun s => s.pc == 0x000#12) = true := by decide
/-- RR15. -/
theorem test_sna : nextIs (step (at0 0x010#12 0x8000#16 false [(0x010, 0x7008#16)]))
    (fun s => s.pc == 0x012#12) = true := by decide
/-- RR15. -/
theorem test_sna_no_skip : nextIs (step (at0 0x010#12 0x7FFF#16 false [(0x010, 0x7008#16)]))
    (fun s => s.pc == 0x011#12) = true := by decide
/-- RR16. -/
theorem test_sza : nextIs (step (at0 0x010#12 0x0000#16 false [(0x010, 0x7004#16)]))
    (fun s => s.pc == 0x012#12) = true := by decide
/-- RR16. -/
theorem test_sza_no_skip : nextIs (step (at0 0x010#12 0x0001#16 false [(0x010, 0x7004#16)]))
    (fun s => s.pc == 0x011#12) = true := by decide
/-- RR17. -/
theorem test_sze : nextIs (step (at0 0x010#12 0x0000#16 false [(0x010, 0x7002#16)]))
    (fun s => s.pc == 0x012#12) = true := by decide
/-- RR17. -/
theorem test_sze_no_skip : nextIs (step (at0 0x010#12 0x0000#16 true [(0x010, 0x7002#16)]))
    (fun s => s.pc == 0x011#12) = true := by decide
/-- RR18. -/
theorem test_hlt : nextIs (step (at0 0x010#12 0x0042#16 true [(0x010, 0x7001#16)]))
    (fun s => s.halt && s.ac == 0x0042#16 && s.e && s.pc == 0x011#12 && s.cnt == ⟨4, 1, 1, 0⟩) = true := by decide
/-- RR33: three skips. -/
theorem test_combination_skips : nextIs (step (at0 0x010#12 0x0000#16 false [(0x010, 0x701E#16)]))
    (fun s => s.pc == 0x014#12) = true := by decide
/-- RR34: all twelve. -/
theorem test_combination_all : nextIs (step (at0 0x010#12 0x1234#16 true [(0x010, 0x7FFF#16)]))
    (fun s => s.ac == 0x0000#16 && s.e && s.pc == 0x013#12 && s.halt) = true := by decide
/-- RR35. -/
theorem test_nop : nextIs (step (at0 0x010#12 0x1234#16 true [(0x010, 0x7000#16)]))
    (fun s => s.ac == 0x1234#16 && s.e && s.pc == 0x011#12 && s.cnt == ⟨4, 1, 1, 0⟩) = true := by decide
/-- P5, step 2, from T0. -/
theorem test_unmapped : nextIs (step (at0 0x001#12 0x0001#16 false [(0x001, 0x9001#16)]))
    (fun s => s.fault && !s.halt && s.t == .t3 && s.pc == 0x002#12 && s.ar == 0x001#12 && s.ir == 0x9001#16 && s.cnt == ⟨4, 0, 1, 0⟩) = true := by decide

/-! ### Witnesses: a state and operands that meet each statement's hypotheses together -/

theorem running_at0 (pc : Address) (ac : Word) (e : Bool) (mem : Memory) : Running (at0 pc ac e mem) := ⟨rfl, rfl⟩
theorem running_atT (t : MicrocycleState) (pc ar : Address) (ir dr : Word) (mem : Memory) :
    Running (atT t pc ar ir dr mem) := ⟨rfl, rfl⟩

/-- DecodeOfEncodeIsIdentity, for the two checked rows. -/
theorem witness_well_formed : (Instr.rri 0x003#12).wellFormed = true ∧ (Instr.unmapped 0x8000#16).wellFormed = true := by
  decide
/-- EnableBitsAndCanonicalWords, at the last entry of the list. -/
theorem witness_list_entry : MicroOp.all[11]? = some .hlt := by decide
/-- OpcodeTopSelectsTheCategory and UnmappedWordFaults, at the lowest unmapped opcode. -/
theorem witness_unmapped_opcode : 8 ≤ (0x8#4).toNat ∧ 8 ≤ ((0x8000#16 : Word).extractLsb' 12 4).toNat := by decide
/-- CommonMicrocyclesFetchAndDecode, each clause. -/
theorem witness_common_microcycles :
    (Running (at0 0#12 0#16 false []) ∧ (at0 0#12 0#16 false []).t = .t0) ∧
    (Running (atT .t1 0#12 0#12 0#16 0#16 []) ∧ (atT .t1 0#12 0#12 0#16 0#16 []).t = .t1) ∧
    (Running (atT .t2 1#12 0#12 0#16 0#16 []) ∧ (atT .t2 1#12 0#12 0#16 0#16 []).t = .t2) :=
  ⟨⟨⟨rfl, rfl⟩, rfl⟩, ⟨⟨rfl, rfl⟩, rfl⟩, ⟨⟨rfl, rfl⟩, rfl⟩⟩
/-- NoInstructionTraps, its first clause. -/
theorem witness_mapped : ∀ w : Word, Instr.hlt ≠ .unmapped w := fun _ h => nomatch h
/-- HaltedStepsChangeNothing; HaltAndFaultAreSticky; StepMicroReportsWhatChanged, where none is performed. -/
theorem witness_halted : ({ State.reset with halt := true } : State).halt = true := by decide
/-- UnmappedWordFaults, the faulted clause; StepMicroReportsWhatChanged, where none is performed. -/
theorem witness_faulted : ({ atT .t3 1#12 0#12 0x8000#16 0#16 [] with fault := true } : State).fault = true ∧
    ({ atT .t3 1#12 0#12 0x8000#16 0#16 [] with fault := true } : State).halt = false := by decide
/-- UnmappedWordFaults, the T3 clause; AddressOrExecDispatches, its unmapped clause. -/
theorem witness_unmapped_t3 : Running (atT .t3 1#12 0#12 0x8000#16 0#16 []) ∧
    (atT .t3 1#12 0#12 0x8000#16 0#16 []).t = .t3 ∧
    8 ≤ ((atT .t3 1#12 0#12 0x8000#16 0#16 []).ir.extractLsb' 12 4).toNat ∧
    descriptor (atT .t3 1#12 0#12 0x8000#16 0#16 []).ir = .unmapped 0x8#4 := ⟨⟨rfl, rfl⟩, by decide⟩
/-- AddressOrExecDispatches, the other two clauses; RegisterReferenceComposition's microcycle clause. -/
theorem witness_t3_dispatch :
    (∀ ir : Word, Running (atT .t3 1#12 0#12 ir 0#16 []) ∧ (atT .t3 1#12 0#12 ir 0#16 []).t = .t3) ∧
    descriptor (atT .t3 1#12 0#12 0x7220#16 0#16 []).ir = .registerRef 0x220#12 ∧
    (atT .t3 1#12 0#12 0x7220#16 0#16 []).ir = 0x7#4 ++ 0x220#12 ∧
    descriptor (atT .t3 1#12 0#12 0x2ABC#16 0#16 []).ir = .memoryRef .lda 0xABC#12 :=
  ⟨fun _ => ⟨⟨rfl, rfl⟩, rfl⟩, by decide⟩
/-- StepRunsTheDecodedInstruction, MicrocyclesAndCountersPerInstruction (a word of each arm), PlacedWordRunsNext. -/
theorem witness_t0_words :
    (∀ w : Word, Running (at0 0#12 0#16 false [(0, w)]) ∧ (at0 0#12 0#16 false [(0, w)]).t = .t0 ∧
      (at0 0#12 0#16 false [(0, w)]).read 0#12 = w) ∧ Memory.wf [(0, 0x2005#16)] = true ∧
    descriptor 0x7000#16 = .registerRef 0#12 ∧ descriptor 0x0000#16 = .memoryRef .and 0#12 ∧
    descriptor 0x1000#16 = .memoryRef .add 0#12 ∧ descriptor 0x2000#16 = .memoryRef .lda 0#12 ∧
    descriptor 0x3000#16 = .memoryRef .sta 0#12 ∧ descriptor 0x4000#16 = .memoryRef .bun 0#12 ∧
    descriptor 0x5000#16 = .memoryRef .bsa 0#12 ∧ descriptor 0x6000#16 = .memoryRef .isz 0#12 ∧
    descriptor 0xF000#16 = .unmapped 0xF#4 := ⟨fun _ => ⟨⟨rfl, rfl⟩, rfl, rfl⟩, by decide⟩
/-- The T4 and T5 clauses of the memory-reference statements. -/
theorem witness_t4_t5 :
    (∀ ir : Word, (Running (atT .t4 1#12 5#12 ir 0#16 []) ∧ (atT .t4 1#12 5#12 ir 0#16 []).t = .t4 ∧
        (atT .t4 1#12 5#12 ir 0#16 []).ir = ir) ∧
      Running (atT .t5 1#12 5#12 ir 0#16 []) ∧ (atT .t5 1#12 5#12 ir 0#16 []).t = .t5 ∧
        (atT .t5 1#12 5#12 ir 0#16 []).ir = ir) ∧
    descriptor 0x0005#16 = .memoryRef .and 5#12 ∧ descriptor 0x1005#16 = .memoryRef .add 5#12 ∧
    descriptor 0x2005#16 = .memoryRef .lda 5#12 ∧ descriptor 0x3005#16 = .memoryRef .sta 5#12 ∧
    descriptor 0x4005#16 = .memoryRef .bun 5#12 ∧ descriptor 0x5005#16 = .memoryRef .bsa 5#12 ∧
    descriptor 0x6005#16 = .memoryRef .isz 5#12 :=
  ⟨fun _ => ⟨⟨⟨rfl, rfl⟩, rfl, rfl⟩, ⟨rfl, rfl⟩, rfl, rfl⟩, by decide⟩
/-- AndMasksTheAccumulator, the clause about an all-zero memory. -/
theorem witness_all_zero : Running State.reset ∧ State.reset.t = .t0 ∧ ∀ a : Address, State.reset.read a = 0x0000#16 :=
  ⟨⟨rfl, rfl⟩, rfl, fun _ => rfl⟩
/-- StaStoresTheAccumulator, BsaSavesTheReturnAddress and IszIncrementsAndSkipsOnZero: a canonical memory, and an address
outside the stored word. -/
theorem witness_store : (at0 0#12 7#16 false [(0, 0x3FFF#16)]).mem.wf = true ∧ (0xFFE#12 : Address) ≠ 0xFFF#12 := by
  decide
/-- BunBranches, the loop clause. -/
theorem witness_branch_to_self : Running (at0 0xFFF#12 0#16 false [(0xFFF, 0x4FFF#16)]) ∧
    (at0 0xFFF#12 0#16 false [(0xFFF, 0x4FFF#16)]).t = .t0 ∧
    (at0 0xFFF#12 0#16 false [(0xFFF, 0x4FFF#16)]).read 0xFFF#12 = 0x4#4 ++ 0xFFF#12 := ⟨⟨rfl, rfl⟩, by decide⟩
/-- StoredWordIsFetchedNext, the microcycle clause: a STA that stores at the address fetched next, one microcycle away. -/
theorem witness_stored_word :
    (atT .t4 5#12 5#12 0x3005#16 0#16 [(5, 0x3005#16)]).mem.wf = true ∧
    micro (atT .t4 5#12 5#12 0x3005#16 0#16 [(5, 0x3005#16)]) =
      .next (t4Sta (atT .t4 5#12 5#12 0x3005#16 0#16 [(5, 0x3005#16)])) ∧
    microStore (atT .t4 5#12 5#12 0x3005#16 0#16 [(5, 0x3005#16)]) = some (5#12, 0x0000#16) ∧
    ∃ run : Nat → State, run 0 = t4Sta (atT .t4 5#12 5#12 0x3005#16 0#16 [(5, 0x3005#16)]) ∧
      (∀ i, i < 1 → micro (run i) = .next (run (i + 1)) ∧ ∀ w, microStore (run i) ≠ some (5#12, w)) ∧
      Running (run 1) ∧ (run 1).t = .t1 ∧ (run 1).ar = 5#12 := by
  refine ⟨by decide, rfl, by decide, fun i =>
    if i = 0 then t4Sta (atT .t4 5#12 5#12 0x3005#16 0#16 [(5, 0x3005#16)])
    else t0FetchAddr (t4Sta (atT .t4 5#12 5#12 0x3005#16 0#16 [(5, 0x3005#16)])), rfl, fun i hi => ?_, ⟨rfl, rfl⟩, rfl, rfl⟩
  obtain rfl : i = 0 := Nat.lt_one_iff.1 hi
  exact ⟨rfl, fun w h => nomatch h⟩
/-- StoredWordIsFetchedNext, each clause by whole steps, the stores to the next address across the wrap. -/
theorem witness_self_modifying :
    (∀ (pc : Address) (m : Memory), Running (at0 pc 0x7001#16 false m) ∧ (at0 pc 0x7001#16 false m).t = .t0) ∧
    (∀ w : Word, w ≠ 0x0000#16 → Memory.wf [(0xFFF, w)] = true) ∧
    (∀ w : Word, (at0 0xFFF#12 0x7001#16 false [(0xFFF, w)]).read 0xFFF#12 = w) ∧
    0x3000#16 = 0x3#4 ++ (0xFFF#12 + 1#12) ∧ 0x6000#16 = 0x6#4 ++ (0xFFF#12 + 1#12) ∧
    (at0 0xFFF#12 0x7001#16 false [(0xFFF, 0x6000#16)]).read (0xFFF#12 + 1#12) ≠ 0xFFFF#16 ∧
    0x3FFF#16 = 0x3#4 ++ 0xFFF#12 ∧ 0x5FFF#16 = 0x5#4 ++ 0xFFF#12 ∧ 0x6FFF#16 = 0x6#4 ++ 0xFFF#12 :=
  ⟨fun _ _ => ⟨⟨rfl, rfl⟩, rfl⟩, fun w h => by simp [Memory.wf, memWfFrom, memWords, h], fun _ => rfl, by decide⟩
/-- IncLeavesEUnchanged; SkipsTestOneCondition; HltHaltsAndSuppressesNothing. -/
theorem witness_register_reference :
    (at0 0#12 0xFFFF#16 true []).ac = 0xFFFF#16 ∧ (at0 0#12 0xFFFF#16 true []).e = true ∧
    (0x021#12 : Enables).getLsbD 0 = true := by decide
/-- NopAndAddedSkips. -/
theorem witness_nop : Running (at0 0#12 0#16 false [(0, 0x7000#16)]) ∧
    (at0 0#12 0#16 false [(0, 0x7000#16)]).t = .t0 ∧
    (at0 0#12 0#16 false [(0, 0x7000#16)]).read 0#12 = 0x7000#16 := ⟨⟨rfl, rfl⟩, by decide⟩
/-- WritersOfArIrDr, WritersOfAcPcE, HaltAndFaultAreSticky, OneWordWrittenPerMicrocycle, CounterIncrements,
StepMicroReportsWhatChanged: a microcycle that answers a state, here one that writes AC, E and PC together. -/
theorem witness_microcycle :
    micro (atT .t3 1#12 0#12 0x7A90#16 0#16 []) = .next (t3Rri 0xA90#12 (atT .t3 1#12 0#12 0x7A90#16 0#16 [])) ∧
    (t3Rri 0xA90#12 (atT .t3 1#12 0#12 0x7A90#16 0#16 [])).fault = false ∧
    (t3Rri 0xA90#12 (atT .t3 1#12 0#12 0x7A90#16 0#16 [])).ac = 0x7FFF#16 ∧
    (t3Rri 0xA90#12 (atT .t3 1#12 0#12 0x7A90#16 0#16 [])).e = true ∧
    (t3Rri 0xA90#12 (atT .t3 1#12 0#12 0x7A90#16 0#16 [])).pc = 2#12 := ⟨rfl, by decide⟩
/-- OneWordWrittenPerMicrocycle: a microcycle that writes memory, on a canonical memory. -/
theorem witness_memory_microcycle :
    micro (atT .t5 1#12 5#12 0x6005#16 0xFFFE#16 [(5, 0xFFFE#16)]) =
      .next (t5Isz (atT .t5 1#12 5#12 0x6005#16 0xFFFE#16 [(5, 0xFFFE#16)])) ∧
    (atT .t5 1#12 5#12 0x6005#16 0xFFFE#16 [(5, 0xFFFE#16)]).mem.wf = true := ⟨rfl, by decide⟩
/-- StepInstructionIsStepMicroRepeated, StepKeepsTheInvariant, MicrocycleKeepsTheInvariant,
EveryCommandKeepsTheInvariant: a state in the middle of an
instruction that meets the invariant and runs. -/
theorem witness_invariant : State.Inv (atT .t5 1#12 5#12 0x6005#16 0xFFFF#16 [(5, 0xFFFF#16)]) ∧
    Running (atT .t5 1#12 5#12 0x6005#16 0xFFFF#16 [(5, 0xFFFF#16)]) :=
  ⟨⟨by decide, by decide, by decide, by decide, .isz, by decide, rfl, by decide⟩, rfl, rfl⟩
/-- StepKeepsTheInvariant: that state steps. -/
theorem witness_invariant_steps : nextIs (step (atT .t5 1#12 5#12 0x6005#16 0xFFFF#16 [(5, 0xFFFF#16)]))
    (fun s => s.pc == 2#12 && s.t == .t0 && s.mem == []) = true := by decide
/-- ProfilerStaysConsistent. -/
theorem witness_profiler : State.ProfilerConsistent (at0 0#12 0#16 false [(0, 0x6005#16)]) := by
  constructor <;> decide
/-- LoadImageWritesTheImage: addresses all different, a good entry and both kinds of bad ones, at the bounds. -/
theorem witness_image :
    (([(0, 0x7001), (4095, 65535), (4096, 1), (-1, -1), (2, 65536)] : Image).map Prod.fst).Nodup := by decide
/-- ReadsReturnTheElementAndChangeNothing: the whole memory is a range. -/
theorem witness_range : (0x000#12 : Address) ≤ 0xFFF#12 := by decide
/-- StepInstructionReportsEveryChange, both premises: an OK that changes a register, and a FAULTED. -/
theorem witness_step_reports :
    (runCommand .stepInstruction (at0 0#12 0#16 false [(0, 0x7020#16)])).1 = .okInstruction [.pc, .ir, .ac] 4 ∧
    (runCommand .stepInstruction (at0 1#12 0#16 false [(1, 0x9001#16)])).1 =
      .faulted .unmappedOpcode 0x9001#16 0x001#12 [.pc, .ar, .ir] 4 := by decide
/-- IndirectConfigurationIsRefused. -/
theorem witness_indirect : ({ Config.hardware with indirectEnabled := true } : Config.Settings).indirectEnabled = true := by
  decide

end Sys2Proof.Tests
end

section
/-! PROOFS. A step of the block, and each of the two step commands, is a sequence of microcycles, whatever the state
(R58, R70): what every microcycle keeps, they keep. -/

namespace Sys2Proof.Machine

/-- Zero or more microcycles, each of which answers a state (R58). -/
def Micros : State → State → Prop := Relation.ReflTransGen (fun s s' => micro s = .next s')

theorem Micros.single {s s' : State} (h : micro s = .next s') : Micros s s' :=
  Relation.ReflTransGen.single h

theorem Micros.trans {s s' s'' : State} (h : Micros s s') (h' : Micros s' s'') : Micros s s'' :=
  Relation.ReflTransGen.trans h h'

/-- A transition of a running block is a microcycle it performs. -/
theorem MicroStep.micros {s s' : State} (hs : MicroStep s s') (hrun : Running s) : Micros s s' :=
  .single ((micro_next_iff s s').2 ⟨hrun.1, hrun.2, hs⟩)

/-- What every microcycle keeps, any number of them keeps. -/
theorem Micros.preserves {P : State → Prop} (hP : ∀ s s', P s → micro s = .next s' → P s') {s s' : State}
    (h : Micros s s') (hs : P s) : P s' := by
  induction h with
  | refl => exact hs
  | tail _ hmicro ih => exact hP _ _ ih hmicro

/-- The rest of the fetch is made of microcycles (R60 to R62). -/
theorem fetchDecode_micros (s : State) (hrun : Running s) : Micros s (fetchDecode s) := by
  have fromT2 : ∀ s : State, Running s → s.t = .t2 → Micros s (t2Decode s) :=
    fun s hrun ht => (MicroStep.decode ht).micros hrun
  have fromT1 : ∀ s : State, Running s → s.t = .t1 → Micros s (t2Decode (t1FetchInstr s)) :=
    fun s hrun ht => ((MicroStep.fetchInstr ht).micros hrun).trans (fromT2 _ hrun rfl)
  unfold fetchDecode
  cases ht : s.t with
  | t0 => exact ((MicroStep.fetchAddr ht).micros hrun).trans (fromT1 _ hrun rfl)
  | t1 => exact fromT1 s hrun ht
  | t2 => exact fromT2 s hrun ht
  | t3 | t4 | t5 => exact .refl

/-- The rest of the fetch sets no stop flag. -/
theorem fetchDecode_running (s : State) (hrun : Running s) : Running (fetchDecode s) := by
  unfold fetchDecode
  cases s.t <;> exact hrun

/-- The rest of the fetch ends at T3. -/
theorem fetchDecode_t (s : State) (ht : s.t = .t0 ∨ s.t = .t1 ∨ s.t = .t2 ∨ s.t = .t3) :
    (fetchDecode s).t = .t3 := by
  unfold fetchDecode
  rcases ht with ht | ht | ht | ht <;> simp [ht, t2Decode]

/-- Each canonical row's meaning is the T3 microcycle of its enable set (R48, R82). -/
theorem exec_ofMicroOp (op : MicroOp) (s : State) :
    exec (.ofMicroOp op) s = .next (t3Rri (canonicalBit op) s) := by
  unfold t3Rri execRRI
  simp only [enabled_canonicalBit]
  cases op <;> rfl

/-- Whichever row a register-reference word is in, its meaning is the T3 microcycle (R63, R82). -/
theorem exec_decodeEnables (en : Enables) (s : State) : exec (decodeEnables en) s = .next (t3Rri en s) := by
  rcases decodeEnables_cases en with ⟨rfl, h⟩ | ⟨op, rfl, h⟩ | ⟨-, -, h⟩ <;> rw [h]
  · rfl
  · exact exec_ofMicroOp op s
  · rfl

/-- A memory-reference meaning is made of microcycles, T3, T4 and for AND, ADD, LDA and ISZ T5 (R74 to R81). -/
theorem exec_ofMri_micros (m : MriOp) (a : Address) (s s' : State) (hrun : Running s) (ht : s.t = .t3)
    (hd : descriptor s.ir = .memoryRef m a) (h : exec (.ofMri m a) s = .next s') : Micros s s' := by
  have hd4 : descriptor (t3Address a s).ir = .memoryRef m a := hd
  have hd5 : descriptor (t4ReadOperand (t3Address a s)).ir = .memoryRef m a := hd
  have haddr : Micros s (t3Address a s) := (MicroStep.address ht m a hd).micros hrun
  have hread (hm : m = .and ∨ m = .add ∨ m = .lda ∨ m = .isz) : Micros s (t4ReadOperand (t3Address a s)) :=
    haddr.trans ((MicroStep.operand rfl m a hd4 hm).micros hrun)
  cases m with
  | and => cases h; exact (hread (by simp)).trans ((MicroStep.and rfl a hd5).micros hrun)
  | add => cases h; exact (hread (by simp)).trans ((MicroStep.add rfl a hd5).micros hrun)
  | lda => cases h; exact (hread (by simp)).trans ((MicroStep.lda rfl a hd5).micros hrun)
  | sta => cases h; exact haddr.trans ((MicroStep.sta rfl a hd4).micros hrun)
  | bun => cases h; exact haddr.trans ((MicroStep.bun rfl a hd4).micros hrun)
  | bsa => cases h; exact haddr.trans ((MicroStep.bsa rfl a hd4).micros hrun)
  | isz => cases h; exact (hread (by simp)).trans ((MicroStep.isz rfl a hd5).micros hrun)

/-- The meaning of the word in IR, from T3 on, is made of microcycles (R63 to R65). -/
theorem exec_decode_micros (s s' : State) (hrun : Running s) (ht : s.t = .t3) (h : exec (decode s.ir) s = .next s') :
    Micros s s' := by
  unfold decode at h
  cases hd : descriptor s.ir with
  | registerRef en =>
    simp only [hd, exec_decodeEnables] at h
    cases h
    exact (MicroStep.registerRef ht en hd).micros hrun
  | unmapped top =>
    simp only [hd] at h
    cases h
    exact (MicroStep.unmapped ht top hd).micros hrun
  | memoryRef m a =>
    simp only [hd] at h
    exact exec_ofMri_micros m a s s' hrun ht hd h

/-- The rest of an instruction in flight is made of microcycles (R70). -/
theorem finish_micros (n : Nat) (s s' : State) (h : finish n s = .next s') : Micros s s' := by
  induction n generalizing s with
  | zero => cases h; exact .refl
  | succ n ih =>
    unfold finish at h
    cases hm : micro s with
    | fault f => simp [hm] at h
    | refused r => simp [hm] at h
    | next s1 =>
      simp only [hm] at h
      split at h
      · cases h; exact .single hm
      · exact (Micros.single hm).trans (ih s1 h)

/-- A step is made of microcycles, in every state (R70). -/
theorem step_micros (s s' : State) (h : step s = .next s') : Micros s s' := by
  cases hs : stopped s with
  | some f => rw [step_of_stopped s f hs] at h; cases h
  | none =>
    have hrun : Running s := (stopped_eq_none s).1 hs
    have fetching (ht : s.t = .t0 ∨ s.t = .t1 ∨ s.t = .t2 ∨ s.t = .t3) : Micros s s' := by
      rw [step_of_fetching s hrun.1 hrun.2 ht] at h
      exact (fetchDecode_micros s hrun).trans
        (exec_decode_micros _ s' (fetchDecode_running s hrun) (fetchDecode_t s ht) h)
    cases ht : s.t with
    | t0 | t1 | t2 | t3 => exact fetching (by simp [ht])
    | t4 => exact finish_micros 2 s s' (by rw [← step_of_t4 s hrun.1 hrun.2 ht, h])
    | t5 => exact finish_micros 1 s s' (by rw [← step_of_t5 s hrun.1 hrun.2 ht, h])

/-- The loop of stepInstruction leaves a state that microcycles lead to (R70). -/
theorem stepLoop_micros (k : Nat) (s : State) (changed : List Reg) (n : Nat) :
    Micros s (stepLoop k s changed n).2 := by
  induction k generalizing s changed n with
  | zero => exact .refl
  | succ k ih =>
    unfold stepLoop
    cases hm : micro s with
    | fault f => exact .refl
    | refused r => exact .refl
    | next s1 =>
      have hone : Micros s s1 := .single hm
      dsimp only
      split
      · exact hone
      · split
        · exact hone
        · exact hone.trans (ih s1 _ _)

/-- stepMicro leaves a state that microcycles lead to (R58). -/
theorem stepMicro_micros (s : State) : Micros s (stepMicro s).2 := by
  cases hm : micro s with
  | next s' => rw [stepMicro_state s s' hm]; exact .single hm
  | fault f => simp only [stepMicro, hm]; exact .refl
  | refused r => exact absurd hm (micro_not_refused s r)

/-- stepInstruction leaves a state that microcycles lead to (R70). -/
theorem stepInstruction_micros (s : State) : Micros s (stepInstruction s).2 := by
  cases hs : stopped s with
  | some f => rw [stepInstruction_of_stopped s f hs]; exact .refl
  | none =>
    obtain ⟨hhalt, hfault⟩ := (stopped_eq_none s).1 hs
    rw [stepInstruction_of_running s hhalt hfault]
    exact stepLoop_micros 6 s [] 0

end Sys2Proof.Machine
end

section
/-! PROOFS. The invariant of the block: every microcycle keeps it, so every step, every command and every sequence of
commands does. -/

namespace Sys2Proof.Machine

/-- A microcycle keeps the memory list in canonical form (R31). -/
theorem micro_keeps_memWf (s s' : State) (hw : s.mem.wf = true) (h : micro s = .next s') : s'.mem.wf = true := by
  rw [micro_mem s s' h]
  cases microStore s with
  | none => exact hw
  | some p => exact memWrite_wf s.mem p.1.toNat p.2 hw (address_lt_memWords p.1)

/-- Where no stop flag is set, the invariant says of the flags nothing more. -/
theorem State.Inv.of_running {s : State} (hmem : s.mem.wf = true) (hrun : Running s) (hphase : PhaseConsistent s) :
    s.Inv := by
  obtain ⟨hhalt, hfault⟩ := hrun
  exact ⟨hmem, by simp [hhalt], by simp [hhalt], by simp [hfault], hphase⟩

/-- T agrees with any registers where an instruction ends. -/
theorem PhaseConsistent.of_t0 {s : State} (ht : s.t = .t0) : PhaseConsistent s := by
  simp [PhaseConsistent, ht]

/-- The end of a running instruction meets the invariant. -/
theorem State.Inv.of_completed {s : State} (hmem : s.mem.wf = true) (hrun : Running s) (ht : s.t = .t0) : s.Inv :=
  .of_running hmem hrun (.of_t0 ht)

/-- T3 of a register-reference word, which alone can set HALT, ends its instruction and keeps IR (R69). -/
theorem t3Rri_inv (en : Enables) (s : State) (hd : descriptor s.ir = .registerRef en) (hrun : Running s)
    (hmem : s.mem.wf = true) : (t3Rri en s).Inv where
  memWf := by simpa [t3Rri] using hmem
  notBoth := by simp [t3Rri, hrun.2]
  halted := by simp [t3Rri, hrun.1, hd]
  faulted := by simp [t3Rri, hrun.2]
  phase := .of_t0 rfl

/-- T3 of an unmapped word sets FAULT and keeps T and every register (R100). -/
theorem raiseFault_inv (s : State) (top : BitVec 4) (ht : s.t = .t3) (hd : descriptor s.ir = .unmapped top)
    (hrun : Running s) (hi : s.Inv) : s.tick.raiseFault.Inv where
  memWf := hi.memWf
  notBoth := by simp [hrun.1]
  halted := by simp [hrun.1]
  faulted := fun _ => ⟨ht, top, hd⟩
  phase := hi.phase

/-- Every microcycle keeps the invariant. -/
theorem micro_keeps_inv (s s' : State) (hi : s.Inv) (h : micro s = .next s') : s'.Inv := by
  have hmem := micro_keeps_memWf s s' hi.memWf h
  obtain ⟨hhalt, hfault, hs⟩ := (micro_next_iff s s').1 h
  have hrun : Running s := ⟨hhalt, hfault⟩
  have hphase := hi.phase
  unfold PhaseConsistent at hphase
  cases hs with
  | fetchAddr ht => exact .of_running hmem hrun rfl
  | fetchInstr ht =>
    have har : s.ar = s.pc := by simpa only [ht] using hphase
    exact .of_running hmem hrun ⟨congrArg nextAddress har.symm, rfl⟩
  | decode ht =>
    have hfetched : s.pc = nextAddress s.ar ∧ s.ir = s.read s.ar := by simpa only [ht] using hphase
    exact .of_running hmem hrun hfetched
  | registerRef ht en hd => exact t3Rri_inv en s hd hrun hi.memWf
  | address ht m a hd => exact .of_running hmem hrun ⟨m, hd⟩
  | unmapped ht top hd => exact raiseFault_inv s top ht hd hrun hi
  | operand ht m a hd hm =>
    obtain ⟨m', har⟩ : ∃ m', descriptor s.ir = .memoryRef m' s.ar := by simpa only [ht] using hphase
    obtain ⟨rfl, rfl⟩ : m = m' ∧ a = s.ar := by simpa [hd] using har
    exact .of_running hmem hrun ⟨m, hd, by rcases hm with rfl | rfl | rfl | rfl <;> rfl, rfl⟩
  | sta | bun | bsa | and | add | lda => exact .of_completed hmem hrun rfl
  | isz => exact .of_completed hmem (by simpa [Running, t5Isz] using hrun) rfl

/-- Settles O42: a step is made of microcycles, and each of them keeps the invariant. -/
theorem stepKeepsTheInvariant : Obligations.StepKeepsTheInvariant :=
  fun s s' hi h => (step_micros s s' h).preserves micro_keeps_inv hi

/-- The reset state meets the invariant (R113). -/
theorem reset_inv : State.reset.Inv := .of_completed rfl ⟨rfl, rfl⟩ rfl

/-- The state after loadImage meets the invariant, whatever the image (R116). -/
theorem loadedState_inv (image : Image) : (loadedState image).Inv :=
  .of_completed (imageMemory_wf image) ⟨rfl, rfl⟩ rfl

/-- Every whole command keeps the invariant. -/
theorem runCommand_keeps_inv (cmd : Command) (s : State) (hi : s.Inv) : (runCommand cmd s).2.Inv := by
  cases cmd with
  | stepMicro => exact (stepMicro_micros s).preserves micro_keeps_inv hi
  | stepInstruction => exact (stepInstruction_micros s).preserves micro_keeps_inv hi
  | reset => exact reset_inv
  | loadImage image => exact loadedState_inv image
  | read q => exact hi

/-- Settles O55: the steps are made of microcycles, reset and loadImage start afresh, a read changes nothing. -/
theorem everyCommandKeepsTheInvariant : Obligations.EveryCommandKeepsTheInvariant :=
  runCommand_keeps_inv

/-- Every sequence of whole commands keeps the invariant (R57). -/
theorem runCommands_keeps_inv (cmds : List Command) (s : State) (hi : s.Inv) : (runCommands cmds s).2.Inv := by
  induction cmds generalizing s with
  | nil => exact hi
  | cons cmd rest ih => exact ih _ (runCommand_keeps_inv cmd s hi)

/-- Settles O44: the invariant holds at reset and every command keeps it; the ranges are those of the types. -/
theorem everyReachedStateMeetsTheInvariant : Obligations.EveryReachedStateMeetsTheInvariant := by
  rintro cmds s rfl
  have hi := runCommands_keeps_inv cmds State.reset reset_inv
  have word (w : Word) : w.toNat ≤ 65535 := Nat.le_of_lt_succ w.isLt
  have address (a : Address) : a.toNat ≤ 4095 := Nat.le_of_lt_succ a.isLt
  refine ⟨hi, hi.notBoth, address _, address _, word _, word _, word _, ?_, fun a => word _⟩
  cases (runCommands cmds State.reset).2.e
  · exact .inl rfl
  · exact .inr rfl

end Sys2Proof.Machine
end

section
/-! PROOFS. Which microcycles write AR, IR, DR, AC, E and PC, each from the transitions of `MicroStep` (R10 to R15). -/

namespace Sys2Proof.Machine

/-- Settles O36, by the transitions of a microcycle. -/
theorem writersOfArIrDr : Obligations.WritersOfArIrDr := by
  intro s s' h
  obtain ⟨-, -, hs⟩ := (micro_next_iff s s').1 h
  cases hs with
  | fetchAddr ht => simp [ht, t0FetchAddr]
  | fetchInstr ht => simp [ht, t1FetchInstr]
  | decode ht => simp [ht, t2Decode]
  | registerRef ht en hd => simp [ht, hd, t3Rri]
  | address ht m a hd => simp [ht, hd, t3Address]
  | unmapped ht top hd => simp [ht, hd]
  | sta ht a hd => simp [ht, hd, t4Sta]
  | bun ht a hd => simp [ht, hd, t4Bun]
  | bsa ht a hd => simp [ht, hd, t4Bsa]
  | operand ht m a hd hm => rcases hm with rfl | rfl | rfl | rfl <;> simp [ht, hd, t4ReadOperand]
  | and ht a hd => simp [ht, t5And]
  | add ht a hd => simp [ht, t5Add]
  | lda ht a hd => simp [ht, t5Lda]
  | isz ht a hd => simp [ht, t5Isz]

/-- A register-reference word that changes AC enables one of the five operations that write it (R10). -/
theorem execRRI_ac_changed (en : Enables) (s : State) (hne : (execRRI en s).ac ≠ s.ac) :
    (enabled en .cla || enabled en .cma || enabled en .cir || enabled en .cil || enabled en .inc) = true := by
  by_contra hnone
  simp only [Bool.or_eq_true, not_or, Bool.not_eq_true] at hnone
  obtain ⟨⟨⟨⟨hcla, hcma⟩, hcir⟩, hcil⟩, hinc⟩ := hnone
  refine hne ?_
  unfold execRRI
  simp only [hcla, hcma, hcir, hcil, hinc, State.applyIf_false, applyIf_microCle, applyIf_microCme, applyIf_microSpa,
    applyIf_microSna, applyIf_microSza, applyIf_microSze, applyIf_microHlt]

/-- A register-reference word that changes E enables one of the four operations that write it (R15). -/
theorem execRRI_e_changed (en : Enables) (s : State) (hne : (execRRI en s).e ≠ s.e) :
    (enabled en .cle || enabled en .cme || enabled en .cir || enabled en .cil) = true := by
  by_contra hnone
  simp only [Bool.or_eq_true, not_or, Bool.not_eq_true] at hnone
  obtain ⟨⟨⟨hcle, hcme⟩, hcir⟩, hcil⟩ := hnone
  refine hne ?_
  unfold execRRI
  simp only [hcle, hcme, hcir, hcil, State.applyIf_false, applyIf_microCla, applyIf_microCma, applyIf_microInc,
    applyIf_microSpa, applyIf_microSna, applyIf_microSza, applyIf_microSze, applyIf_microHlt]

/-- A register-reference word that changes PC enables one of the four skips (R11). -/
theorem execRRI_pc_changed (en : Enables) (s : State) (hne : (execRRI en s).pc ≠ s.pc) :
    (enabled en .spa || enabled en .sna || enabled en .sza || enabled en .sze) = true := by
  by_contra hnone
  simp only [Bool.or_eq_true, not_or, Bool.not_eq_true] at hnone
  obtain ⟨⟨⟨hspa, hsna⟩, hsza⟩, hsze⟩ := hnone
  refine hne ?_
  unfold execRRI
  simp only [hspa, hsna, hsza, hsze, State.applyIf_false, applyIf_microCla, applyIf_microCle, applyIf_microCma,
    applyIf_microCme, applyIf_microCir, applyIf_microCil, applyIf_microInc, applyIf_microHlt]

/-- Settles O37, by the transitions of a microcycle: the listed ones are the only ones that do not keep the register. -/
theorem writersOfAcPcE : Obligations.WritersOfAcPcE := by
  intro s s' h
  obtain ⟨-, -, hs⟩ := (micro_next_iff s s').1 h
  refine ⟨fun hne => ?_, fun hne => ?_, fun hne => ?_⟩
  · cases hs with
    | registerRef ht en hd => exact .inl ⟨ht, en, hd, execRRI_ac_changed en s.tick hne⟩
    | and ht a hd => exact .inr ⟨ht, _, a, hd, by simp⟩
    | add ht a hd => exact .inr ⟨ht, _, a, hd, by simp⟩
    | lda ht a hd => exact .inr ⟨ht, _, a, hd, by simp⟩
    | isz => exact absurd (by simp [t5Isz]) hne
    | fetchAddr | fetchInstr | decode | address | unmapped | sta | bun | bsa | operand => exact absurd rfl hne
  · cases hs with
    | registerRef ht en hd => exact .inl ⟨ht, en, hd, execRRI_e_changed en s.tick hne⟩
    | add ht a hd => exact .inr ⟨ht, a, hd⟩
    | isz => exact absurd (by simp [t5Isz]) hne
    | fetchAddr | fetchInstr | decode | address | unmapped | sta | bun | bsa | operand | and | lda =>
      exact absurd rfl hne
  · cases hs with
    | fetchInstr ht => exact .inl ht
    | registerRef ht en hd => exact .inr (.inl ⟨ht, en, hd, execRRI_pc_changed en s.tick hne⟩)
    | bun ht a hd => exact .inr (.inr (.inl ⟨ht, _, a, hd, by simp⟩))
    | bsa ht a hd => exact .inr (.inr (.inl ⟨ht, _, a, hd, by simp⟩))
    | isz ht a hd => exact .inr (.inr (.inr ⟨ht, a, hd⟩))
    | fetchAddr | decode | address | unmapped | sta | operand | and | add | lda => exact absurd rfl hne

end Sys2Proof.Machine
end

section
/-! PROOFS. The stop flags: what sets them, and what a stopped block does (R16, R17, R58). -/

namespace Sys2Proof.Machine

/-- The guard stops a step where a stop flag is set (R58). -/
theorem stopped_eq_some_of_flag (s : State) (h : s.halt = true ∨ s.fault = true) : ∃ f, stopped s = some f := by
  refine Option.ne_none_iff_exists'.1 fun hnone => ?_
  obtain ⟨hhalt, hfault⟩ := (stopped_eq_none s).1 hnone
  simp [hhalt, hfault] at h

/-- Settles O38: the setters by the transitions of a microcycle, the stop by the guard of the two step commands. -/
theorem haltAndFaultAreSticky : Obligations.HaltAndFaultAreSticky := by
  refine ⟨fun s s' h => ?_, fun cmd s hstop => ?_⟩
  · obtain ⟨hhalt, hfault, hs⟩ := (micro_next_iff s s').1 h
    cases hs with
    | registerRef ht en hd => simp [ht, hd, t3Rri, hhalt, hfault]
    | unmapped ht top hd => simp [ht, hd, hhalt]
    | address ht m a hd => simp [ht, hd, t3Address, hhalt, hfault]
    | fetchAddr ht | fetchInstr ht | decode ht | sta ht | bun ht | bsa ht | operand ht | and ht | add ht | lda ht =>
      simp only [ht]
      exact ⟨hhalt, hfault⟩
    | isz ht => simp [ht, t5Isz, hhalt, hfault]
  · obtain ⟨f, hf⟩ := stopped_eq_some_of_flag s hstop
    cases cmd with
    | stepMicro => exact .inr (.inr (by rw [runCommand_stepMicro, stepMicro_of_stopped s f hf]))
    | stepInstruction => exact .inr (.inr (by rw [runCommand_stepInstruction, stepInstruction_of_stopped s f hf]))
    | reset => exact .inl rfl
    | loadImage image => exact .inr (.inl ⟨image, rfl⟩)
    | read q => exact .inr (.inr rfl)

end Sys2Proof.Machine
end

section
/-! PROOFS. What the reads of the host return (R25). -/

namespace Sys2Proof.Machine

/-- A range reads as many words as it has addresses (log 14). -/
theorem readRange_length (s : State) (first last : Address) :
    (readRange s first last).length = last.toNat + 1 - first.toNat := by
  simp [readRange]

/-- The i-th word of a range is the word at its i-th address (R25). -/
theorem readRange_getElem? (s : State) (first last : Address) (i : Nat) (hi : first.toNat + i ≤ last.toNat) :
    (readRange s first last)[i]? = some (s.read (first + BitVec.ofNat 12 i)) := by
  have haddr : (first + BitVec.ofNat 12 i).toNat = first.toNat + i := by
    have hlast := last.isLt
    rw [BitVec.toNat_add, BitVec.toNat_ofNat]
    omega
  have hlt : i < last.toNat + 1 - first.toNat := by omega
  simp [readRange, State.read, haddr, hlt]

/-- Settles O50: each query's value is the element's, a range's by its length and its entries. -/
theorem readsReturnTheElementAndChangeNothing : Obligations.ReadsReturnTheElementAndChangeNothing := by
  intro s
  refine ⟨fun _ => rfl, rfl, rfl, rfl, rfl, rfl, ?_, rfl, rfl, rfl, rfl, fun first last hle => ?_⟩
  · cases he : s.e <;> simp [readValue, State.reg, he]
  · have hle' : first.toNat ≤ last.toNat := hle
    refine ⟨readRange s first last, rfl, ?_, fun i hi => readRange_getElem? s first last i ?_⟩
    · rw [readRange_length]
      omega
    · rw [readRange_length] at hi
      omega

end Sys2Proof.Machine
end

section
/-! PROOFS. The stores: what a microcycle writes, and that the word it stores is what a later fetch of its address loads
(R29, R30, R40, R122). -/

namespace Sys2Proof.Machine

/-! ### One microcycle -/

/-- BSA's word, the return address zero-extended, by its two fields (R44, R80). -/
theorem setWidth_eq_append (a : Address) : (a.setWidth 16 : Word) = 0x0#4 ++ a :=
  BitVec.setWidth_eq_append (by decide)

/-- What a store is: at AR, and AC at T4 of STA, the return address at T4 of BSA, the word plus one at T5 of ISZ. -/
theorem microStore_eq_some {s : State} {b : Address} {v : Word} (h : microStore s = some (b, v)) :
    b = s.ar ∧
      ((s.t = .t4 ∧ (∃ a, descriptor s.ir = .memoryRef .sta a) ∧ v = s.ac) ∨
        (s.t = .t4 ∧ (∃ a, descriptor s.ir = .memoryRef .bsa a) ∧ v = s.pc.setWidth 16) ∨
          (s.t = .t5 ∧ (∃ a, descriptor s.ir = .memoryRef .isz a) ∧ v = iszWord s.dr)) := by
  unfold microStore at h
  split at h
  case h_1 a ht hd => cases h; exact ⟨rfl, .inl ⟨ht, ⟨a, hd⟩, rfl⟩⟩
  case h_2 a ht hd => cases h; exact ⟨rfl, .inr (.inl ⟨ht, ⟨a, hd⟩, rfl⟩)⟩
  case h_3 a ht hd => cases h; exact ⟨rfl, .inr (.inr ⟨ht, ⟨a, hd⟩, rfl⟩)⟩
  case h_4 => cases h

/-- Settles O39: the memory after a microcycle is that of its store, at AR with the value of the three rules. -/
theorem oneWordWrittenPerMicrocycle : Obligations.OneWordWrittenPerMicrocycle := by
  intro s s' hw h
  have other (b : Address) (hb : b ≠ s.ar) : s'.read b = s.read b :=
    micro_read_other s s' b h fun w hs => hb (microStore_eq_some hs).1
  refine ⟨micro_keeps_memWf s s' hw h, other, ?_⟩
  split
  case h_1 a ht hd => exact micro_read_stored s s' s.ar s.ac hw h (by simp [microStore, ht, hd])
  case h_2 a ht hd =>
    exact micro_read_stored s s' s.ar _ hw h (by simp [microStore, ht, hd, setWidth_eq_append])
  case h_3 a ht hd => exact micro_read_stored s s' s.ar _ hw h (by simp [microStore, ht, hd, iszWord])
  case h_4 hsta hbsa hisz =>
    refine micro_read_other s s' s.ar h fun w hs => ?_
    obtain ⟨-, ⟨ht, ⟨a, hd⟩, -⟩ | ⟨ht, ⟨a, hd⟩, -⟩ | ⟨ht, ⟨a, hd⟩, -⟩⟩ := microStore_eq_some hs
    · exact hsta a ht hd
    · exact hbsa a ht hd
    · exact hisz a ht hd

/-- A store leaves IR, and with it the instruction in flight, alone: T1 alone writes IR (R13). -/
theorem micro_ir_of_store {s s' : State} {b : Address} {v : Word} (h : micro s = .next s')
    (hs : microStore s = some (b, v)) : s'.ir = s.ir := by
  obtain ⟨-, hir, -⟩ := writersOfArIrDr s s' h
  obtain ⟨-, ⟨ht, -⟩ | ⟨ht, -⟩ | ⟨ht, -⟩⟩ := microStore_eq_some hs <;> simpa [ht] using hir

/-- Along microcycles none of which stores at an address, the word there stays. -/
theorem read_of_run (run : Nat → State) (b : Address) (n : Nat)
    (hrun : ∀ i, i < n → micro (run i) = .next (run (i + 1)) ∧ ∀ w, microStore (run i) ≠ some (b, w)) :
    (run n).read b = (run 0).read b := by
  induction n with
  | zero => rfl
  | succ n ih =>
    obtain ⟨hmicro, hstore⟩ := hrun n n.lt_succ_self
    calc (run (n + 1)).read b = (run n).read b := micro_read_other _ _ b hmicro hstore
      _ = (run 0).read b := ih fun i hi => hrun i (Nat.lt_succ_of_lt hi)

/-- T1 loads the word at AR into IR (R61). -/
theorem micro_fetchInstr {s : State} (hrun : Running s) (ht : s.t = .t1) : micro s = .next (t1FetchInstr s) :=
  (micro_next_iff s _).2 ⟨hrun.1, hrun.2, .fetchInstr ht⟩

/-! ### One whole step -/

/-- A memory-reference word decodes to its row (R46, R47). -/
theorem decode_mriWord (m : MriOp) (a : Address) : decode (mriWord m a) = .ofMri m a := by
  simp [decode, descriptor_mriWord]

/-- The state in which the fetch of a word from T0 leaves the block, at T3 (R60 to R62). -/
def State.fetched (s : State) (w : Word) : State :=
  { s with
    ar := s.pc, ir := w, pc := s.pc + 1#12, t := .t3
    cnt := { s.cnt with cycles := s.cnt.cycles + 3, reads := s.cnt.reads + 1 } }

/-- From T0 a step fetches the word at PC and runs its instruction (R70). -/
theorem step_of_word {s : State} {w : Word} (hrun : Running s) (ht : s.t = .t0) (hword : s.read s.pc = w) :
    step s = exec (decode w) (s.fetched w) := by
  subst hword
  rw [step_of_fetching s hrun.1 hrun.2 (.inl ht), fetchDecode_t0 s ht]
  rfl

/-- From T0 with a memory-reference word at PC, a step runs the row of that word (R70, R74). -/
theorem step_of_mriWord {s : State} {m : MriOp} {a : Address} (hrun : Running s) (ht : s.t = .t0)
    (hword : s.read s.pc = mriWord m a) : step s = exec (.ofMri m a) (s.fetched (mriWord m a)) := by
  rw [step_of_word hrun ht hword, decode_mriWord]

/-- STA leaves AC at AR (R78). -/
theorem t4Sta_read_ar (s : State) (hw : s.mem.wf = true) : (t4Sta s).read s.ar = s.ac :=
  memRead_write_same s.mem s.ar.toNat s.ac hw

/-- BSA leaves the return address at AR (R80). -/
theorem t4Bsa_read_ar (s : State) (hw : s.mem.wf = true) : (t4Bsa s).read s.ar = 0x0#4 ++ s.pc :=
  (memRead_write_same s.mem s.ar.toNat (s.pc.setWidth 16) hw).trans (setWidth_eq_append s.pc)

/-- The microcycles of ISZ leave the word plus one at its operand (R81). -/
theorem isz_read (a : Address) (s : State) (hw : s.mem.wf = true) :
    (t5Isz (t4ReadOperand (t3Address a s))).read a = s.read a + 1#16 := by
  have hmem : (t5Isz (t4ReadOperand (t3Address a s))).mem = memWrite s.mem a.toNat (s.read a + 1#16) := by
    simp only [t5Isz, State.complete_mem, State.applyIf_skip_mem]
    rfl
  rw [State.read, hmem]
  exact memRead_write_same s.mem a.toNat _ hw

/-- The microcycles of ISZ leave PC alone where the word plus one is not zero (R81). -/
theorem isz_pc_of_no_skip (a : Address) (s : State) (hne : s.read a ≠ 0xFFFF#16) :
    (t5Isz (t4ReadOperand (t3Address a s))).pc = s.pc := by
  have hskip : iszSkips (t4ReadOperand (t3Address a s)).dr = false :=
    Bool.eq_false_iff.2 fun h => hne ((iszSkips_iff _).1 h)
  rw [t5Isz, hskip]
  rfl

@[simp] theorem t5Isz_ir (s : State) : (t5Isz s).ir = s.ir := by
  simp [t5Isz]

theorem t5Isz_running {s : State} (hrun : Running s) : Running (t5Isz s) := by
  simpa [Running, t5Isz] using hrun

/-- A word with opcode 6, ISZ's own, is not the one that wraps to zero. -/
theorem mriWord_isz_ne_max (a : Address) : mriWord .isz a ≠ 0xFFFF#16 := by
  intro h
  have htop : mriOpcode .isz = opcodeTop 0xFFFF#16 := by rw [← h, mriWord, opcodeTop_append]
  exact absurd htop (by decide)

/-- Settles O23: a store is read back, microcycles that do not store there keep it, and a fetch loads what is read. -/
theorem storedWordIsFetchedNext : Obligations.StoredWordIsFetchedNext := by
  refine ⟨fun s s' b v hw h hs => ⟨micro_ir_of_store h hs, micro_read_stored s s' b v hw h hs, ?_⟩,
    fun s hw hrun ht => ⟨fun hword => ?_, fun hword hmax => ?_, fun hword => ?_, fun hword => ?_, fun hword => ?_⟩⟩
  · rintro run n rfl hmicros hrun ht rfl
    refine ⟨_, micro_fetchInstr hrun ht, ?_⟩
    calc (run n).read (run n).ar = (run 0).read (run n).ar := read_of_run run _ n hmicros
      _ = v := micro_read_stored s (run 0) _ v hw h hs
  · exact ⟨_, step_of_mriWord (m := .sta) hrun ht hword, rfl, step_of_word hrun rfl (t4Sta_read_ar _ hw)⟩
  · have hpc := isz_pc_of_no_skip (s.pc + 1#12) (s.fetched (mriWord .isz (s.pc + 1#12))) hmax
    exact ⟨_, step_of_mriWord (m := .isz) hrun ht hword, hpc,
      step_of_word (t5Isz_running hrun) rfl (hpc ▸ isz_read _ _ hw)⟩
  · exact ⟨_, step_of_mriWord (m := .sta) hrun ht hword, rfl, rfl, t4Sta_read_ar _ hw, rfl⟩
  · exact ⟨_, step_of_mriWord (m := .bsa) hrun ht hword, rfl, rfl, t4Bsa_read_ar _ hw⟩
  · exact ⟨_, step_of_mriWord (m := .isz) hrun ht hword, t5Isz_ir _,
      isz_pc_of_no_skip s.pc _ (hword.trans_ne (mriWord_isz_ne_max s.pc)),
      (isz_read s.pc (s.fetched _) hw).trans (congrArg (· + 1#16) hword)⟩

end Sys2Proof.Machine
end

section
/-! PROOFS. The decoder and the encoder undo each other (R43 to R52): the enable bits of a register-reference word, then
the two round trips, each by the rows of the opcode table. -/

namespace Sys2Proof.Machine

/-! ### The enable bits (R48) -/

/-- The table `rriBitMap` counts the bits down from 11 along the list (R48, D3). -/
theorem all_map_rriBitMap : MicroOp.all.map Config.rriBitMap = (List.range 12).reverse := by decide

/-- The k-th micro-operation of the list has bit `11 - k` (R48, D3). -/
theorem rriBitMap_of_getElem?_all {k : Nat} {op : MicroOp} (h : MicroOp.all[k]? = some op) :
    Config.rriBitMap op = 11 - k := by
  have hk : k < 12 := (List.getElem?_eq_some_iff.1 h).1
  have hmap : (MicroOp.all.map Config.rriBitMap)[k]? = some (Config.rriBitMap op) := by simp [h]
  rw [all_map_rriBitMap, List.getElem?_reverse (by simpa using hk), List.length_range,
    List.getElem?_range (by omega)] at hmap
  exact (Option.some.inj hmap).symm

/-- Every one of the twelve bits is some micro-operation's. -/
theorem exists_rriBitMap_eq {i : Nat} (hi : i < 12) : ∃ op, Config.rriBitMap op = i := by
  have hmem : i ∈ MicroOp.all.map Config.rriBitMap := by simpa [all_map_rriBitMap] using hi
  obtain ⟨op, -, h⟩ := List.mem_map.1 hmem
  exact ⟨op, h⟩

/-- An enable set is the micro-operations it switches on. -/
theorem enables_ext {en en' : Enables} (h : ∀ op, enabled en op = enabled en' op) : en = en' := by
  refine BitVec.eq_of_getLsbD_eq fun i hi => ?_
  obtain ⟨op, rfl⟩ := exists_rriBitMap_eq hi
  exact h op

theorem canonicalBit_toNat (op : MicroOp) : (canonicalBit op).toNat = 2 ^ Config.rriBitMap op := by
  cases op <;> rfl

/-- A set has no bit in common with the set one below it exactly if it is empty or a power of two, so one bit. -/
theorem severalSet_eq_false_iff (en : Enables) :
    en.severalSet = false ↔ en = 0#12 ∨ ∃ op, en = canonicalBit op := by
  constructor
  · refine fun h => or_iff_not_imp_left.2 fun h0 => ?_
    have hand : en.toNat &&& (en.toNat - 1) = 0 := by
      have hsub : (en - 1#12).toNat = en.toNat - 1 := by bv_omega
      have hand : en &&& (en - 1#12) = 0#12 := by simpa [Enables.severalSet] using h
      simpa [hsub] using congrArg BitVec.toNat hand
    obtain ⟨k, hk⟩ := (Nat.and_sub_one_eq_zero_iff_isPowerOfTwo (by bv_omega)).1 hand
    have hk12 : k < 12 := (Nat.pow_lt_pow_iff_right Nat.one_lt_two).1 (hk ▸ en.isLt)
    obtain ⟨op, rfl⟩ := exists_rriBitMap_eq hk12
    exact ⟨op, BitVec.eq_of_toNat_eq (hk.trans (canonicalBit_toNat op).symm)⟩
  · rintro (rfl | ⟨op, rfl⟩)
    · rfl
    · cases op <;> rfl

/-- The check of the combination row: neither NOP's set nor a canonical one (R49). -/
theorem severalSet_iff (en : Enables) : en.severalSet = true ↔ en ≠ 0#12 ∧ ∀ op, en ≠ canonicalBit op := by
  rw [← Bool.not_eq_false, severalSet_eq_false_iff, not_or, not_exists]

/-- Two or more enable bits are in no row but the combination row (R49). -/
theorem decodeEnables_of_severalSet {en : Enables} (h : en.severalSet = true) : decodeEnables en = .rri en := by
  obtain ⟨h0, hop⟩ := (severalSet_iff en).1 h
  rcases decodeEnables_cases en with ⟨he, -⟩ | ⟨op, he, -⟩ | ⟨-, -, hrri⟩
  · exact absurd he h0
  · exact absurd he (hop op)
  · exact hrri

/-! ### The instruction of a word -/

theorem decode_rriWord (en : Enables) : decode (rriWord en) = decodeEnables en := by
  simp [decode, descriptor_rriWord]

theorem decode_unmapped {w : Word} (h : w.getLsbD 15 = true) : decode w = .unmapped w := by
  simp [decode, descriptor_unmapped w h]

/-- A canonical word decodes to its own row (R48). -/
theorem decode_canonicalWord (op : MicroOp) : decode (rriWord (canonicalBit op)) = .ofMicroOp op :=
  (decode_rriWord _).trans (decodeEnables_canonicalBit op)

theorem decode_rriWord_of_severalSet {en : Enables} (h : en.severalSet = true) : decode (rriWord en) = .rri en :=
  (decode_rriWord en).trans (decodeEnables_of_severalSet h)

/-- Settles O1, row by row: the memory-reference words, the canonical words, a combination, NOP and the unmapped. -/
theorem decodeOfEncodeIsIdentity : Obligations.DecodeOfEncodeIsIdentity := by
  intro i hwf
  cases i with
  | and a | add a | lda a | sta a | bun a | bsa a | isz a => exact decode_mriWord _ a
  | cla | cle | cma | cme | cir | cil | inc | spa | sna | sza | sze | hlt => exact decode_canonicalWord _
  | rri en => exact decode_rriWord_of_severalSet hwf
  | nop => exact decode_rriWord 0#12
  | unmapped w => exact decode_unmapped hwf

/-! ### The word of a decoded instruction -/

theorem ofMri_wellFormed (m : MriOp) (a : Address) : (Instr.ofMri m a).wellFormed = true := by
  cases m <;> rfl

theorem encode_ofMri (m : MriOp) (a : Address) : encode (.ofMri m a) = mriWord m a := by
  cases m <;> rfl

theorem ofMicroOp_wellFormed (op : MicroOp) : (Instr.ofMicroOp op).wellFormed = true := by
  cases op <;> rfl

theorem encode_ofMicroOp (op : MicroOp) : encode (.ofMicroOp op) = rriWord (canonicalBit op) := by
  cases op <;> rfl

theorem decodeEnables_wellFormed (en : Enables) : (decodeEnables en).wellFormed = true := by
  rcases decodeEnables_cases en with ⟨-, h⟩ | ⟨op, -, h⟩ | ⟨h0, hop, h⟩ <;> rw [h]
  · rfl
  · exact ofMicroOp_wellFormed op
  · exact (severalSet_iff en).2 ⟨h0, hop⟩

theorem encode_decodeEnables (en : Enables) : encode (decodeEnables en) = rriWord en := by
  rcases decodeEnables_cases en with ⟨rfl, h⟩ | ⟨op, rfl, h⟩ | ⟨-, -, h⟩ <;> rw [h]
  · rfl
  · exact encode_ofMicroOp op
  · rfl

/-- Settles O2, by the three ways a word can decode: register-reference, memory-reference, unmapped. -/
theorem encodeOfDecodeIsIdentity : Obligations.EncodeOfDecodeIsIdentity := by
  intro w
  rcases descriptor_cases w with ⟨en, -, rfl⟩ | ⟨m, a, -, rfl⟩ | ⟨-, hbit⟩
  · rw [decode_rriWord]
    exact ⟨decodeEnables_wellFormed en, encode_decodeEnables en⟩
  · rw [decode_mriWord]
    exact ⟨ofMri_wellFormed m a, encode_ofMri m a⟩
  · rw [decode_unmapped hbit]
    exact ⟨hbit, rfl⟩

/-! ### Tables of the encoding -/

/-- Settles O3: every enable set by its descriptor, the positions by `rriBitMap`, and each canonical word is that of its
micro-operation. -/
theorem enableBitsAndCanonicalWords : Obligations.EnableBitsAndCanonicalWords :=
  ⟨descriptor_rriWord, rfl, fun _ _ h en => congrArg en.getLsbD (rriBitMap_of_getElem?_all h),
    decode_canonicalWord .cla, decode_canonicalWord .cle, decode_canonicalWord .cma, decode_canonicalWord .cme,
    decode_canonicalWord .cir, decode_canonicalWord .cil, decode_canonicalWord .inc, decode_canonicalWord .spa,
    decode_canonicalWord .sna, decode_canonicalWord .sza, decode_canonicalWord .sze, decode_canonicalWord .hlt⟩

/-- Bit 15 of a word whose opcode is 8 or above is set (R50). -/
theorem getLsbD_15_append {top : BitVec 4} (h : 8 ≤ top.toNat) (low : BitVec 12) :
    (top ++ low).getLsbD 15 = true := by
  have htop : top.msb = true := BitVec.msb_eq_true_iff_two_mul_ge.2 (by omega)
  rw [BitVec.getLsbD_append]
  exact BitVec.msb_eq_getLsbD_last top ▸ htop

/-- Settles O4: the word of each opcode has the descriptor of its category, whatever the low bits. -/
theorem opcodeTopSelectsTheCategory : Obligations.OpcodeTopSelectsTheCategory := fun low =>
  ⟨descriptor_mriWord .and low, descriptor_mriWord .add low, descriptor_mriWord .lda low, descriptor_mriWord .sta low,
    descriptor_mriWord .bun low, descriptor_mriWord .bsa low, descriptor_mriWord .isz low, descriptor_rriWord low,
    fun top h => (descriptor_unmapped _ (getLsbD_15_append h low)).trans
      (congrArg _ (opcodeTop_append top low))⟩

/-- Settles O5: each word by the row of the opcode table it is in. -/
theorem sampleWordsDecode : Obligations.SampleWordsDecode :=
  ⟨decode_mriWord .lda 0x005#12, decode_mriWord .bun 0x005#12, decode_mriWord .and 0x010#12,
    decode_mriWord .add 0xABC#12, decode_mriWord .sta 0x020#12, decode_mriWord .bsa 0x100#12,
    decode_mriWord .isz 0xFFF#12, decode_canonicalWord .hlt, decode_rriWord 0#12,
    decode_rriWord_of_severalSet (en := 0x220#12) rfl, decode_rriWord_of_severalSet (en := 0xFFF#12) rfl,
    decode_unmapped rfl⟩

end Sys2Proof.Machine
end

section
/-! PROOFS. The assembler lines: the word of each line, and a line for each word (R54, R55). -/

namespace Sys2Proof.Machine

theorem assemble_mri (m : MriOp) (a : Address) : assemble (.mri m a) = mriWord m a := by
  have h := BitVec.setWidth_append_eq_shiftLeft_setWidth_or (b := mriOpcode m) (b' := a) (w'' := 16)
  rw [BitVec.setWidth_eq] at h
  exact h.symm

theorem mriWord_toNat (m : MriOp) (a : Address) : (mriWord m a).toNat = 4096 * (mriOpcode m).toNat + a.toNat := by
  rw [mriWord, BitVec.toNat_append, ← Nat.shiftLeft_add_eq_or_of_lt a.isLt, Nat.shiftLeft_eq, Nat.mul_comm]

/-! ### Lists of micro-operations -/

/-- The enable set of a list of micro-operations. -/
def enablesOf (ops : List MicroOp) : Enables := ops.foldr (fun op en => canonicalBit op ||| en) 0#12

/-- A list enables exactly its micro-operations, in any order and with any repeats (log 22). -/
theorem enabled_enablesOf (ops : List MicroOp) (op : MicroOp) : enabled (enablesOf ops) op = decide (op ∈ ops) := by
  induction ops with
  | nil => simp [enablesOf, enabled]
  | cons op' ops ih =>
    calc enabled (canonicalBit op' ||| enablesOf ops) op
        = (enabled (canonicalBit op') op || enabled (enablesOf ops) op) := BitVec.getLsbD_or
      _ = decide (op ∈ op' :: ops) := by simp [enabled_canonicalBit, ih]

/-- Setting a bit of the word sets it in the enable set. -/
theorem rriWord_or (en : Enables) (op : MicroOp) :
    rriWord en ||| (canonicalBit op).setWidth 16 = rriWord (en ||| canonicalBit op) := by
  rw [setWidth_eq_append]
  exact BitVec.or_append

/-- A list's bits set one after the other, on top of those of a word. -/
theorem foldl_or_rriWord (ops : List MicroOp) (en : Enables) :
    ops.foldl (fun w op => w ||| (canonicalBit op).setWidth 16) (rriWord en) = rriWord (en ||| enablesOf ops) := by
  induction ops generalizing en with
  | nil => simp [enablesOf]
  | cons op ops ih => rw [List.foldl_cons, rriWord_or, ih, BitVec.or_assoc]; rfl

theorem assemble_micro (ops : List MicroOp) : assemble (.micro ops) = rriWord (enablesOf ops) :=
  (foldl_or_rriWord ops 0#12).trans (congrArg rriWord BitVec.zero_or)

/-- The list of the enabled micro-operations gives the set back. -/
theorem enablesOf_enabledOps (en : Enables) : enablesOf (enabledOps en) = en := by
  refine enables_ext fun op => ?_
  have hall : op ∈ MicroOp.all := by cases op <;> decide
  simp [enabled_enablesOf, enabledOps, hall]

/-! ### The line of a word -/

theorem assemble_disassemble (w : Word) : assemble (disassemble w) = w := by
  rcases descriptor_cases w with ⟨en, hd, hw⟩ | ⟨m, a, hd, hw⟩ | ⟨hd, -⟩ <;> simp only [disassemble, hd]
  · split
    next h0 => rw [hw, h0]; rfl
    next => rw [hw, assemble_micro, enablesOf_enabledOps]
  · rw [hw, assemble_mri]
  · rfl

/-- Settles O6: the word of a line is that of its opcode and address or of its enable set; the line of a word gives the
word back. -/
theorem assemblerLinesAndWords : Obligations.AssemblerLinesAndWords := by
  refine ⟨fun m a => ?_, fun ops => ?_, rfl, fun _ => rfl, rfl, rfl, assemble_disassemble⟩
  · rw [assemble_mri, mriWord_toNat]
  · rw [assemble_micro, rriWord, low12_append]
    exact ⟨opcodeTop_append _ _, fun op => by simp [enabled_enablesOf]⟩

end Sys2Proof.Machine
end

section
/-! PROOFS. The microcycles one at a time: what the common ones and T3 do, when one is performed, and what it counts and
reports (R59 to R68, R72). -/

namespace Sys2Proof.Machine

/-! ### The transitions of a running block -/

/-- A running block performs its transition (R58). -/
theorem micro_of_microStep {s s' : State} (hrun : Running s) (hs : MicroStep s s') : micro s = .next s' :=
  (micro_next_iff s s').2 ⟨hrun.1, hrun.2, hs⟩

/-- A block that performs a microcycle was running (R58). -/
theorem running_of_micro {s s' : State} (h : micro s = .next s') : Running s := by
  obtain ⟨hhalt, hfault, -⟩ := (micro_next_iff s s').1 h
  exact ⟨hhalt, hfault⟩

theorem microStep_of_micro {s s' : State} (h : micro s = .next s') : MicroStep s s' := by
  obtain ⟨-, -, hs⟩ := (micro_next_iff s s').1 h
  exact hs

/-- Settles O7, by the transitions at T0, T1 and T2. -/
theorem commonMicrocyclesFetchAndDecode : Obligations.CommonMicrocyclesFetchAndDecode := fun _ hrun =>
  ⟨fun ht => micro_of_microStep hrun (.fetchAddr ht), fun ht => micro_of_microStep hrun (.fetchInstr ht),
    fun ht => micro_of_microStep hrun (.decode ht)⟩

/-- Settles O12, by the three transitions at T3. -/
theorem addressOrExecDispatches : Obligations.AddressOrExecDispatches := fun _ hrun ht =>
  ⟨fun en hd => micro_of_microStep hrun (.registerRef ht en hd),
    fun m a hd => micro_of_microStep hrun (.address ht m a hd),
    fun top hd => micro_of_microStep hrun (.unmapped ht top hd)⟩

/-! ### When a microcycle is performed -/

theorem readsOperand_iff (m : MriOp) : readsOperand m = true ↔ m = .and ∨ m = .add ∨ m = .lda ∨ m = .isz := by
  cases m <;> simp [readsOperand]

/-- Up to T3 every word has its microcycle (R60 to R63). -/
theorem exists_microStep_of_early {s : State} (ht : s.t = .t0 ∨ s.t = .t1 ∨ s.t = .t2 ∨ s.t = .t3) :
    ∃ s', MicroStep s s' := by
  rcases ht with ht | ht | ht | ht
  · exact ⟨_, .fetchAddr ht⟩
  · exact ⟨_, .fetchInstr ht⟩
  · exact ⟨_, .decode ht⟩
  · exact ⟨_, t3AddrOrExec_step s ht⟩

/-- At T4 every memory-reference word has its microcycle (R64). -/
theorem exists_microStep_of_t4 {s : State} {m : MriOp} {a : Address} (ht : s.t = .t4)
    (hd : descriptor s.ir = .memoryRef m a) : ∃ s', MicroStep s s' := by
  cases m with
  | and | add | lda | isz => exact ⟨_, .operand ht _ a hd (by simp)⟩
  | sta => exact ⟨_, .sta ht a hd⟩
  | bun => exact ⟨_, .bun ht a hd⟩
  | bsa => exact ⟨_, .bsa ht a hd⟩

/-- At T5 every word that reads its operand has its microcycle (R65). -/
theorem exists_microStep_of_t5 {s : State} {m : MriOp} {a : Address} (ht : s.t = .t5)
    (hd : descriptor s.ir = .memoryRef m a) (hm : readsOperand m = true) : ∃ s', MicroStep s s' := by
  rcases (readsOperand_iff m).1 hm with rfl | rfl | rfl | rfl
  · exact ⟨_, .and ht a hd⟩
  · exact ⟨_, .add ht a hd⟩
  · exact ⟨_, .lda ht a hd⟩
  · exact ⟨_, .isz ht a hd⟩

/-- Where T agrees with the registers, the word in IR has a microcycle (R67). -/
theorem PhaseConsistent.exists_microStep {s : State} (h : PhaseConsistent s) : ∃ s', MicroStep s s' := by
  unfold PhaseConsistent at h
  cases ht : s.t with
  | t0 | t1 | t2 | t3 => exact exists_microStep_of_early (by simp [ht])
  | t4 =>
    obtain ⟨m, hd⟩ : ∃ m, descriptor s.ir = .memoryRef m s.ar := by simpa only [ht] using h
    exact exists_microStep_of_t4 ht hd
  | t5 =>
    obtain ⟨m, hd, hm, -⟩ :
        ∃ m, descriptor s.ir = .memoryRef m s.ar ∧ readsOperand m = true ∧ s.dr = s.read s.ar := by
      simpa only [ht] using h
    exact exists_microStep_of_t5 ht hd hm

/-- Settles O43: the phase clause gives the microcycle, and every microcycle keeps the invariant. -/
theorem microcycleKeepsTheInvariant : Obligations.MicrocycleKeepsTheInvariant := by
  intro s hi hrun
  obtain ⟨s', hs⟩ := hi.phase.exists_microStep
  have h := micro_of_microStep hrun hs
  exact ⟨s', h, micro_keeps_inv s s' hi h⟩

/-! ### What a microcycle counts -/

@[simp] theorem t3Rri_fault (en : Enables) (s : State) : (t3Rri en s).fault = s.fault := by
  simp [t3Rri]

@[simp] theorem t3Rri_cnt (en : Enables) (s : State) :
    (t3Rri en s).cnt = ⟨s.cnt.cycles + 1, s.cnt.instructions + 1, s.cnt.reads, s.cnt.writes⟩ := by
  simp [t3Rri]

@[simp] theorem t5Isz_fault (s : State) : (t5Isz s).fault = s.fault := by
  simp [t5Isz]

@[simp] theorem t5Isz_cnt (s : State) :
    (t5Isz s).cnt = ⟨s.cnt.cycles + 1, s.cnt.instructions + 1, s.cnt.reads, s.cnt.writes + 1⟩ := by
  simp [t5Isz]

/-- Settles O40, by the transitions of a microcycle. -/
theorem counterIncrements : Obligations.CounterIncrements := by
  intro s s' h
  cases microStep_of_micro h with
  | fetchAddr ht => simp [ht, t0FetchAddr]
  | fetchInstr ht => simp [ht, t1FetchInstr]
  | decode ht => simp [ht, t2Decode]
  | registerRef ht en hd => simp [ht, hd, t3Rri]
  | address ht m a hd => simp [ht, hd, t3Address]
  | unmapped ht top hd => simp [ht, hd]
  | sta ht a hd => simp [ht, hd, t4Sta]
  | bun ht a hd => simp [ht, hd, t4Bun]
  | bsa ht a hd => simp [ht, hd, t4Bsa]
  | operand ht m a hd hm => rcases hm with rfl | rfl | rfl | rfl <;> simp [ht, hd, t4ReadOperand]
  | and ht a hd => simp [ht, hd, t5And]
  | add ht a hd => simp [ht, hd, t5Add]
  | lda ht a hd => simp [ht, hd, t5Lda]
  | isz ht a hd => simp [ht, hd, t5Isz]

/-! ### What a microcycle reports -/

/-- The one microcycle that sets FAULT is T3 of an unmapped word, which does nothing else but count (R100). -/
theorem eq_raiseFault_of_fault {s s' : State} (h : micro s = .next s') (hf : s'.fault = true) :
    s' = s.tick.raiseFault := by
  have hfault : s.fault = false := (running_of_micro h).2
  cases microStep_of_micro h with
  | unmapped => rfl
  | registerRef | isz => simp [hfault] at hf
  | fetchAddr | fetchInstr | decode | address | sta | bun | bsa | operand | and | add | lda =>
    exact absurd (hfault.symm.trans hf) Bool.false_ne_true

/-- The microcycle that sets FAULT changes no register of the snapshot (R72, R100). -/
theorem micro_reg_of_fault {s s' : State} (h : micro s = .next s') (hf : s'.fault = true) (r : Reg) :
    s'.reg r = s.reg r := by
  rw [eq_raiseFault_of_fault h hf]
  cases r <;> rfl

/-- A microcycle other than T1 leaves IR alone (R13). -/
theorem micro_ir {s s' : State} (h : micro s = .next s') (ht : s.t ≠ .t1) : s'.ir = s.ir := by
  obtain ⟨-, hir, -⟩ := writersOfArIrDr s s' h
  simpa [ht] using hir

/-- The descriptor reported is that of IR after the microcycle too (R72). -/
theorem decodedAt_of_micro {s s' : State} (h : micro s = .next s') :
    decodedAt s.t s.ir = if s.t = .t0 ∨ s.t = .t1 then none else some (descriptor s'.ir) := by
  by_cases ht : s.t = .t1
  · simp [ht, decodedAt]
  · rw [micro_ir h ht]
    cases s.t <;> simp [decodedAt]

theorem stopped_of_halt {s : State} (h : s.halt = true) : stopped s = some .halted := by
  simp [stopped, h]

theorem stopped_of_fault {s : State} (hhalt : s.halt = false) (hfault : s.fault = true) :
    stopped s = some (.faulted .unmappedOpcode s.ir s.ar) := by
  simp [stopped, hhalt, hfault]

/-- Settles O51: a microcycle reports by `observe`, its changed set empty with FAULT; a stop by `observeStopped`. -/
theorem stepMicroReportsWhatChanged : Obligations.StepMicroReportsWhatChanged := by
  refine ⟨fun s s' h => ?_, fun s hstop => ⟨observeStopped s, ?_, rfl, rfl, rfl⟩⟩
  · rw [runCommand_stepMicro, stepMicro_of_next s s' h]
    by_cases hf : s'.fault = true
    · exact ⟨[], observe s s', by simp only [if_pos hf], fun r => by simp [micro_reg_of_fault h hf r],
        fun _ => rfl, rfl, rfl, decodedAt_of_micro h⟩
    · exact ⟨changedRegs s s', observe s s', by simp only [if_neg hf], mem_changedRegs s s',
        fun hf' => absurd hf' hf, rfl, rfl, decodedAt_of_micro h⟩
  · rw [runCommand_stepMicro]
    cases hhalt : s.halt with
    | true => rw [stepMicro_of_stopped s _ (stopped_of_halt hhalt)]; rfl
    | false =>
      have hfault : s.fault = true := by simpa [hhalt] using hstop
      rw [stepMicro_of_stopped s _ (stopped_of_fault hhalt hfault)]
      rfl

/-! ### A step from T0 -/

/-- Settles O10, by the fetch from T0. -/
theorem stepRunsTheDecodedInstruction : Obligations.StepRunsTheDecodedInstruction :=
  fun _ hrun ht => step_of_word hrun ht rfl

/-- A word placed at PC is what a fetch there reads (log 3). -/
theorem read_withFetchWord (s : State) (w : Nat) (hw : s.mem.wf = true) :
    (s.withFetchWord 16 w).read s.pc = BitVec.ofNat 16 (w % 2 ^ 16) :=
  memRead_write_same s.mem s.pc.toNat _ hw

/-- Settles O11: the word placed is the one a step from T0 fetches. -/
theorem placedWordRunsNext : Obligations.PlacedWordRunsNext := by
  intro s w hw hlt
  rw [step_of_word (s := s.withFetchWord 16 w) ⟨rfl, rfl⟩ rfl (read_withFetchWord s w hw)]
  simp only [State.withFetchWord, Nat.mod_eq_of_lt hlt]
  rfl

end Sys2Proof.Machine
end

section
/-! PROOFS. One whole instruction: the microcycles up to its end as a relation, and that a step performs it (R67, R70). -/

namespace Sys2Proof.Machine

/-! ### The microcycles of an instruction -/

/-- Where stepInstruction stops: FAULT or HALT is set, or the block is back at T0 (R70). -/
def InstructionEnded (s : State) : Prop := s.fault = true ∨ s.halt = true ∨ s.t = .t0

theorem InstructionEnded.of_t0 {s : State} (ht : s.t = .t0) : InstructionEnded s := .inr (.inr ht)

theorem not_instructionEnded {s : State} (hrun : Running s) (ht : s.t ≠ .t0) : ¬InstructionEnded s := by
  obtain ⟨hhalt, hfault⟩ := hrun
  simp [InstructionEnded, hhalt, hfault, ht]

/-- Where stepInstruction goes on, the block is running. -/
theorem running_of_not_ended {s : State} (h : ¬InstructionEnded s) : Running s := by
  simp only [InstructionEnded, not_or, Bool.not_eq_true] at h
  obtain ⟨hfault, hhalt, -⟩ := h
  exact ⟨hhalt, hfault⟩

/-- So many microcycles lead from a state to the end of the instruction in flight, and none before the last ends it. -/
inductive InstructionRun : Nat → State → State → Prop
  | last {s s' : State} (h : micro s = .next s') (hend : InstructionEnded s') : InstructionRun 1 s s'
  | more {n : Nat} {s s1 s' : State} (h : micro s = .next s1) (hgo : ¬InstructionEnded s1)
    (hrest : InstructionRun n s1 s') : InstructionRun (n + 1) s s'

theorem InstructionRun.running {n : Nat} {s s' : State} (h : InstructionRun n s s') : Running s := by
  cases h with
  | last h | more h => exact running_of_micro h

/-- A run goes on after a transition that does not lead to T0. -/
theorem InstructionRun.cons {n : Nat} {s s1 s' : State} (hrun : Running s) (hs : MicroStep s s1) (ht : s1.t ≠ .t0)
    (h : InstructionRun n s1 s') : InstructionRun (n + 1) s s' :=
  .more (micro_of_microStep hrun hs) (not_instructionEnded h.running ht) h

/-- A transition back to T0 ends the instruction. -/
theorem InstructionRun.of_completion {s s' : State} (hrun : Running s) (hs : MicroStep s s') (ht : s'.t = .t0) :
    InstructionRun 1 s s' :=
  .last (micro_of_microStep hrun hs) (.of_t0 ht)

/-! ### The end of the instruction is reached -/

/-- The microcycles an instruction has left at most (R67). -/
def microcyclesLeft : MicrocycleState → Nat
  | .t0 => 6
  | .t1 => 5
  | .t2 => 4
  | .t3 => 3
  | .t4 => 2
  | .t5 => 1

theorem microcyclesLeft_pos (t : MicrocycleState) : 1 ≤ microcyclesLeft t := by
  cases t <;> simp [microcyclesLeft]

theorem microcyclesLeft_le (t : MicrocycleState) : microcyclesLeft t ≤ 6 := by
  cases t <;> simp [microcyclesLeft]

/-- A microcycle ends the instruction or goes on to the next T (R67). -/
theorem micro_ends_or_advances {s s' : State} (h : micro s = .next s') :
    InstructionEnded s' ∨ microcyclesLeft s.t = microcyclesLeft s'.t + 1 := by
  cases microStep_of_micro h with
  | fetchAddr ht | fetchInstr ht | decode ht | address ht | operand ht => exact .inr (by rw [ht]; rfl)
  | registerRef | sta | bun | bsa | and | add | lda | isz => exact .inl (.of_t0 rfl)
  | unmapped => exact .inl (.inl rfl)

/-- An instruction takes no more microcycles than T leaves it (R67). -/
theorem InstructionRun.le_microcyclesLeft {n : Nat} {s s' : State} (h : InstructionRun n s s') :
    n ≤ microcyclesLeft s.t := by
  induction h with
  | last => exact microcyclesLeft_pos _
  | more h hgo _ ih => rw [(micro_ends_or_advances h).resolve_left hgo]; exact Nat.succ_le_succ ih

/-- After a microcycle that leaves the block running, the next one is performed: T4 and T5 are reached only with a word
that has them (R64, R65). -/
theorem exists_micro_of_micro {s s1 : State} (h : micro s = .next s1) (hrun : Running s1) :
    ∃ s2, micro s1 = .next s2 := by
  suffices hstep : ∃ s2, MicroStep s1 s2 from hstep.imp fun _ hs => micro_of_microStep hrun hs
  cases microStep_of_micro h with
  | fetchAddr => exact exists_microStep_of_early (.inr (.inl rfl))
  | fetchInstr => exact exists_microStep_of_early (.inr (.inr (.inl rfl)))
  | decode => exact exists_microStep_of_early (.inr (.inr (.inr rfl)))
  | address _ m a hd => exact exists_microStep_of_t4 (s := t3Address a s) rfl hd
  | unmapped => exact absurd hrun.2 (by simp)
  | operand _ m a hd hm => exact exists_microStep_of_t5 (s := t4ReadOperand s) rfl hd ((readsOperand_iff m).2 hm)
  | registerRef | sta | bun | bsa | and | add | lda | isz => exact exists_microStep_of_early (.inl rfl)

/-- A first microcycle leads on to the end of the instruction (R67). -/
theorem exists_instructionRun {s s1 : State} (h : micro s = .next s1) : ∃ n s', InstructionRun n s s' := by
  induction hk : microcyclesLeft s.t generalizing s s1 with
  | zero => exact absurd (microcyclesLeft_pos s.t) (by omega)
  | succ k ih =>
    by_cases hend : InstructionEnded s1
    · exact ⟨1, s1, .last h hend⟩
    · obtain ⟨s2, h2⟩ := exists_micro_of_micro h (running_of_not_ended hend)
      have hadvance := (micro_ends_or_advances h).resolve_left hend
      obtain ⟨n, s', hrest⟩ := ih h2 (by omega)
      exact ⟨n + 1, s', .more h hend hrest⟩

/-! ### step follows the run -/

theorem finish_of_micro_fault {s : State} {f : Fault} (k : Nat) (h : micro s = .fault f) :
    finish (k + 1) s = .fault f := by
  rw [finish, h]

/-- `finish` with enough fuel leaves the end of the run (R70). -/
theorem InstructionRun.finish_eq {n k : Nat} {s s' : State} (h : InstructionRun n s s') (hk : n ≤ k) :
    finish k s = .next s' := by
  induction h generalizing k with
  | last h hend =>
    obtain ⟨k, rfl⟩ := Nat.exists_eq_add_of_le' hk
    simp only [finish, h]
    exact if_pos (by simpa [InstructionEnded, or_assoc] using hend)
  | @more n s s1 s' h hgo hrest ih =>
    obtain ⟨k, rfl⟩ := Nat.exists_eq_add_of_le' (Nat.le_of_add_left_le hk)
    simp only [finish, h]
    rw [if_neg (by simpa [InstructionEnded, or_assoc] using hgo)]
    exact ih (by omega)

/-- The microcycles an instruction performs from T3 on (R124). -/
def microcyclesFromT3 : OperationDescriptor → Nat
  | .registerRef _ => 1
  | .memoryRef m _ => if readsOperand m then 3 else 2
  | .unmapped _ => 1

/-- The meaning of a memory-reference word is the run of its microcycles from T3 on (R74 to R81). -/
theorem exec_ofMri_run {s : State} {m : MriOp} {a : Address} (hrun : Running s) (ht : s.t = .t3)
    (hd : descriptor s.ir = .memoryRef m a) :
    ∃ s', exec (.ofMri m a) s = .next s' ∧ InstructionRun (if readsOperand m then 3 else 2) s s' := by
  have hd4 : descriptor (t3Address a s).ir = .memoryRef m a := hd
  have hd5 : descriptor (t4ReadOperand (t3Address a s)).ir = .memoryRef m a := hd
  have direct {s' : State} (hs : MicroStep (t3Address a s) s') (ht' : s'.t = .t0) : InstructionRun 2 s s' :=
    .cons hrun (.address ht m a hd) nofun (.of_completion hrun hs ht')
  have operand {s' : State} (hm : readsOperand m = true) (hs : MicroStep (t4ReadOperand (t3Address a s)) s')
      (ht' : s'.t = .t0) : InstructionRun 3 s s' :=
    .cons hrun (.address ht m a hd) nofun
      (.cons hrun (.operand rfl m a hd4 ((readsOperand_iff m).1 hm)) nofun (.of_completion hrun hs ht'))
  cases m with
  | and => exact ⟨_, rfl, operand rfl (.and rfl a hd5) rfl⟩
  | add => exact ⟨_, rfl, operand rfl (.add rfl a hd5) rfl⟩
  | lda => exact ⟨_, rfl, operand rfl (.lda rfl a hd5) rfl⟩
  | isz => exact ⟨_, rfl, operand rfl (.isz rfl a hd5) rfl⟩
  | sta => exact ⟨_, rfl, direct (.sta rfl a hd4) rfl⟩
  | bun => exact ⟨_, rfl, direct (.bun rfl a hd4) rfl⟩
  | bsa => exact ⟨_, rfl, direct (.bsa rfl a hd4) rfl⟩

/-- exec of the word in IR is the run of its microcycles from T3 on (R63 to R65; log 19). -/
theorem exec_decode_run {s : State} (hrun : Running s) (ht : s.t = .t3) :
    ∃ s', exec (decode s.ir) s = .next s' ∧ InstructionRun (microcyclesFromT3 (descriptor s.ir)) s s' := by
  unfold decode
  cases hd : descriptor s.ir with
  | registerRef en =>
    exact ⟨_, exec_decodeEnables en s, .of_completion hrun (.registerRef ht en hd) rfl⟩
  | memoryRef m a => exact exec_ofMri_run hrun ht hd
  | unmapped top => exact ⟨_, rfl, .last (micro_of_microStep hrun (.unmapped ht top hd)) (.inl rfl)⟩

/-- T2 comes before the run from T3 on (R62). -/
theorem InstructionRun.of_t2 {n : Nat} {s s' : State} (ht : s.t = .t2) (h : InstructionRun n (t2Decode s) s') :
    InstructionRun (n + 1) s s' :=
  .cons h.running (.decode ht) nofun h

theorem InstructionRun.of_t1 {n : Nat} {s s' : State} (ht : s.t = .t1)
    (h : InstructionRun n (t2Decode (t1FetchInstr s)) s') : InstructionRun (n + 2) s s' :=
  .cons h.running (.fetchInstr ht) nofun (.of_t2 rfl h)

theorem InstructionRun.of_t0 {n : Nat} {s s' : State} (ht : s.t = .t0)
    (h : InstructionRun n (t2Decode (t1FetchInstr (t0FetchAddr s))) s') : InstructionRun (n + 3) s s' :=
  .cons h.running (.fetchAddr ht) nofun (.of_t1 rfl h)

/-- The rest of the fetch comes before the run from T3 on (R60 to R62). -/
theorem InstructionRun.of_fetchDecode {n : Nat} {s s' : State} (h : InstructionRun n (fetchDecode s) s') :
    ∃ k, InstructionRun k s s' := by
  unfold fetchDecode at h
  cases ht : s.t <;> simp only [ht] at h
  case t0 => exact ⟨n + 3, .of_t0 ht h⟩
  case t1 => exact ⟨n + 2, .of_t1 ht h⟩
  case t2 => exact ⟨n + 1, .of_t2 ht h⟩
  all_goals exact ⟨n, h⟩

/-- Up to T3, a step is the run of the instruction in flight (R60 to R65). -/
theorem step_run_of_fetching {s : State} (hrun : Running s)
    (ht : s.t = .t0 ∨ s.t = .t1 ∨ s.t = .t2 ∨ s.t = .t3) : ∃ n s', step s = .next s' ∧ InstructionRun n s s' := by
  obtain ⟨s', hexec, hrest⟩ := exec_decode_run (fetchDecode_running s hrun) (fetchDecode_t s ht)
  obtain ⟨n, h⟩ := hrest.of_fetchDecode
  exact ⟨n, s', by rw [step_of_fetching s hrun.1 hrun.2 ht, hexec], h⟩

/-- `finish` with enough fuel is the run of the instruction in flight, or the stop of its first microcycle. -/
theorem finish_run_or_fault {s : State} {k : Nat} (hk : microcyclesLeft s.t ≤ k + 1) :
    (∃ n s', finish (k + 1) s = .next s' ∧ InstructionRun n s s') ∨
      ∃ f, finish (k + 1) s = .fault f ∧ micro s = .fault f := by
  cases hm : micro s with
  | next s1 =>
    obtain ⟨n, s', h⟩ := exists_instructionRun hm
    exact .inl ⟨n, s', h.finish_eq (h.le_microcyclesLeft.trans hk), h⟩
  | fault f => exact .inr ⟨f, finish_of_micro_fault k hm, rfl⟩
  | refused r => exact absurd hm (micro_not_refused s r)

/-- A step of a running block is the run of the instruction in flight, or the stop of its first microcycle. -/
theorem step_run_or_fault {s : State} (hrun : Running s) :
    (∃ n s', step s = .next s' ∧ InstructionRun n s s') ∨ ∃ f, step s = .fault f ∧ micro s = .fault f := by
  cases ht : s.t with
  | t0 | t1 | t2 | t3 => exact .inl (step_run_of_fetching hrun (by simp [ht]))
  | t4 =>
    rw [step_of_t4 s hrun.1 hrun.2 ht]
    exact finish_run_or_fault (by rw [ht]; rfl)
  | t5 =>
    rw [step_of_t5 s hrun.1 hrun.2 ht]
    exact finish_run_or_fault (by rw [ht]; rfl)

end Sys2Proof.Machine
end

section
/-! PROOFS. What stepInstruction reports: the end of its microcycles, how many there were, and the union of what each of
them changed (R70, R72). -/

namespace Sys2Proof.Machine

/-! ### The registers changed along the way -/

/-- One of the first so many stepMicro commands changes the register. -/
def ChangedWithin (n : Nat) (s : State) (r : Reg) : Prop :=
  ∃ k, k < n ∧ (afterMicros k s).reg r ≠ (afterMicros (k + 1) s).reg r

/-- The first microcycle changes the register, or a later one does. -/
theorem changedWithin_succ {s s1 : State} (h : micro s = .next s1) (n : Nat) (r : Reg) :
    ChangedWithin (n + 1) s r ↔ s.reg r ≠ s1.reg r ∨ ChangedWithin n s1 r := by
  unfold ChangedWithin
  rw [Nat.exists_lt_succ_left]
  simp only [afterMicros_succ_of_next _ s s1 h, afterMicros_zero]

theorem not_changedWithin_zero (s : State) (r : Reg) : ¬ChangedWithin 0 s r := by
  simp [ChangedWithin]

/-- A register no microcycle changes is as before (R72). -/
theorem reg_eq_of_not_changedWithin {n : Nat} {s : State} {r : Reg} (h : ¬ChangedWithin n s r) :
    s.reg r = (afterMicros n s).reg r := by
  simp only [ChangedWithin, not_exists, not_and, ne_eq, not_not] at h
  induction n with
  | zero => rfl
  | succ n ih => exact (ih fun k hk => h k (Nat.lt_succ_of_lt hk)).trans (h n n.lt_succ_self)

/-! ### The loop -/

/-- stepInstruction's outcome at the end of an instruction (R70). -/
def instructionOutcome (s' : State) (changed : List Reg) (n : Nat) : CommandOutcome :=
  if s'.fault then .faulted .unmappedOpcode s'.ir s'.ar changed n else .okInstruction changed n

/-- The loop stops after a microcycle that ends the instruction; that of the fault changes no register. -/
theorem stepLoop_of_ended {s s' : State} (h : micro s = .next s') (hend : InstructionEnded s') (k : Nat)
    (changed : List Reg) (m : Nat) :
    ∃ changed', stepLoop (k + 1) s changed m = (instructionOutcome s' changed' (m + 1), s') ∧
      ∀ r, r ∈ changed' ↔ r ∈ changed ∨ s.reg r ≠ s'.reg r := by
  simp only [stepLoop, h, instructionOutcome]
  by_cases hf : s'.fault = true
  · exact ⟨changed, by simp only [if_pos hf], fun r => by simp [micro_reg_of_fault h hf r]⟩
  · have hstop : (s'.halt || s'.t == .t0) = true := by simpa [InstructionEnded, hf] using hend
    exact ⟨unionRegs changed (changedRegs s s'), by simp only [if_neg hf, if_pos hstop],
      fun r => by rw [mem_unionRegs, mem_changedRegs]⟩

/-- The loop goes on after a microcycle that does not end the instruction. -/
theorem stepLoop_of_not_ended {s s1 : State} (h : micro s = .next s1) (hgo : ¬InstructionEnded s1) (k : Nat)
    (changed : List Reg) (m : Nat) :
    stepLoop (k + 1) s changed m = stepLoop k s1 (unionRegs changed (changedRegs s s1)) (m + 1) := by
  simp only [InstructionEnded, not_or] at hgo
  obtain ⟨hfault, hhalt, ht⟩ := hgo
  simp [stepLoop, h, hfault, hhalt, ht]

theorem stepLoop_of_micro_fault {s : State} {f : Fault} (h : micro s = .fault f) (k : Nat) (changed : List Reg)
    (m : Nat) : stepLoop (k + 1) s changed m = (stopOutcome f, s) := by
  rw [stepLoop, h]

/-- The loop with enough fuel leaves the end of the run, its number of microcycles, and the union of their changes. -/
theorem InstructionRun.stepLoop_eq {n k : Nat} {s s' : State} (h : InstructionRun n s s') (hk : n ≤ k)
    (changed : List Reg) (m : Nat) :
    ∃ changed', stepLoop k s changed m = (instructionOutcome s' changed' (m + n), s') ∧
      ∀ r, r ∈ changed' ↔ r ∈ changed ∨ ChangedWithin n s r := by
  induction h generalizing k changed m with
  | last h hend =>
    obtain ⟨k, rfl⟩ := Nat.exists_eq_add_of_le' hk
    simpa only [changedWithin_succ h 0, not_changedWithin_zero, or_false] using stepLoop_of_ended h hend k changed m
  | @more n s s1 s' h hgo hrest ih =>
    obtain ⟨k, rfl⟩ := Nat.exists_eq_add_of_le' (Nat.le_of_add_left_le hk)
    obtain ⟨changed', heq, hmem⟩ := ih (k := k) (by omega) (unionRegs changed (changedRegs s s1)) (m + 1)
    refine ⟨changed', ?_, fun r => ?_⟩
    · rw [stepLoop_of_not_ended h hgo, heq, Nat.add_right_comm, Nat.add_assoc]
    · rw [hmem, mem_unionRegs, mem_changedRegs, changedWithin_succ h, or_assoc]

/-- stepInstruction leaves the end of the run and reports it (R70). -/
theorem InstructionRun.stepInstruction_eq {n : Nat} {s s' : State} (h : InstructionRun n s s') :
    ∃ changed, stepInstruction s = (instructionOutcome s' changed n, s') ∧
      ∀ r, r ∈ changed ↔ ChangedWithin n s r := by
  have hn : n ≤ 6 := h.le_microcyclesLeft.trans (microcyclesLeft_le s.t)
  obtain ⟨changed, heq, hmem⟩ := h.stepLoop_eq hn [] 0
  refine ⟨changed, ?_, by simpa using hmem⟩
  rw [stepInstruction_of_running s h.running.1 h.running.2, heq, Nat.zero_add]

theorem stepInstruction_of_micro_fault {s : State} {f : Fault} (hrun : Running s) (h : micro s = .fault f) :
    stepInstruction s = (stopOutcome f, s) := by
  rw [stepInstruction_of_running s hrun.1 hrun.2, stepLoop_of_micro_fault h]

/-- Settles O13: a running block's step and stepInstruction follow one run, and stop alike where there is none. -/
theorem stepIsStepInstruction : Obligations.StepIsStepInstruction := by
  intro s
  cases hs : stopped s with
  | some f => rw [step_of_stopped s f hs]; exact stepInstruction_of_stopped s f hs
  | none =>
    have hrun : Running s := (stopped_eq_none s).1 hs
    rcases step_run_or_fault hrun with ⟨n, s', hstep, h⟩ | ⟨f, hstep, h⟩
    · obtain ⟨changed, heq, -⟩ := h.stepInstruction_eq
      rw [hstep, heq]
      refine ⟨rfl, ?_⟩
      cases hf : s'.fault with
      | false => exact .inl ⟨rfl, changed, n, by simp [instructionOutcome, hf]⟩
      | true => exact .inr ⟨rfl, changed, n, by simp [instructionOutcome, hf]⟩
    · rw [hstep]
      exact stepInstruction_of_micro_fault hrun h

/-! ### The state and the cycles after a run -/

/-- A run is as many stepMicro commands as it has microcycles (R111). -/
theorem InstructionRun.afterMicros_eq {n : Nat} {s s' : State} (h : InstructionRun n s s') :
    s' = afterMicros n s := by
  induction h with
  | last h => rw [afterMicros_succ_of_next 0 _ _ h, afterMicros_zero]
  | more h _ _ ih => rw [afterMicros_succ_of_next _ _ _ h, ih]

/-- A run counts its microcycles (R59). -/
theorem InstructionRun.cycles {n : Nat} {s s' : State} (h : InstructionRun n s s') :
    s'.cnt.cycles = s.cnt.cycles + n := by
  have one {s s1 : State} (h : micro s = .next s1) : s1.cnt.cycles = s.cnt.cycles + 1 := (counterIncrements s s1 h).1
  induction h with
  | last h => exact one h
  | more h _ _ ih => rw [ih, one h]; omega

/-! ### Every stepInstruction -/

/-- stepInstruction stops without a microcycle, or follows a run (R70). -/
theorem stepInstruction_stops_or_runs (s : State) :
    (∃ f, stepInstruction s = (stopOutcome f, s)) ∨
      ∃ n s' changed, InstructionRun n s s' ∧ stepInstruction s = (instructionOutcome s' changed n, s') ∧
        ∀ r, r ∈ changed ↔ ChangedWithin n s r := by
  cases hs : stopped s with
  | some f => exact .inl ⟨f, stepInstruction_of_stopped s f hs⟩
  | none =>
    cases hm : micro s with
    | next s1 =>
      obtain ⟨n, s', h⟩ := exists_instructionRun hm
      obtain ⟨changed, heq, hmem⟩ := h.stepInstruction_eq
      exact .inr ⟨n, s', changed, h, heq, hmem⟩
    | fault f => exact .inl ⟨f, stepInstruction_of_micro_fault ((stopped_eq_none s).1 hs) hm⟩
    | refused r => exact absurd hm (micro_not_refused s r)

/-- The changed set and the number of microcycles that OK and FAULTED of stepInstruction carry (R56). -/
def CommandOutcome.instructionReport : CommandOutcome → Option (List Reg × Nat)
  | .okInstruction changed n => some (changed, n)
  | .faulted _ _ _ changed n => some (changed, n)
  | _ => none

theorem instructionReport_instructionOutcome (s : State) (changed : List Reg) (n : Nat) :
    (instructionOutcome s changed n).instructionReport = some (changed, n) := by
  unfold instructionOutcome
  split <;> rfl

/-- A stop that reports does so of no microcycle (R70; log 21). -/
theorem instructionReport_stopOutcome {f : Fault} {changed : List Reg} {n : Nat}
    (h : (stopOutcome f).instructionReport = some (changed, n)) : changed = [] ∧ n = 0 := by
  cases f with
  | faulted => cases h; exact ⟨rfl, rfl⟩
  | halted | noMicrocycle => cases h

/-- Settles O52: stepInstruction reports the union along its run, or has performed no microcycle. -/
theorem stepInstructionReportsEveryChange : Obligations.StepInstructionReportsEveryChange := by
  intro s s' changed n hcmd
  obtain ⟨hstate, hreport⟩ :
      (stepInstruction s).2 = s' ∧ (stepInstruction s).1.instructionReport = some (changed, n) := by
    rcases hcmd with h | ⟨ir, addr, h⟩ <;> rw [runCommand_stepInstruction] at h <;> rw [h] <;> exact ⟨rfl, rfl⟩
  obtain ⟨rfl, hcycles, hmem⟩ :
      s' = afterMicros n s ∧ s'.cnt.cycles = s.cnt.cycles + n ∧ ∀ r, r ∈ changed ↔ ChangedWithin n s r := by
    rcases stepInstruction_stops_or_runs s with ⟨f, heq⟩ | ⟨k, s1, changed1, hrun, heq, hmem⟩
    · rw [heq] at hstate hreport
      obtain ⟨rfl, rfl⟩ := instructionReport_stopOutcome hreport
      subst hstate
      exact ⟨rfl, rfl, fun r => by simp [not_changedWithin_zero]⟩
    · rw [heq] at hstate hreport
      rw [instructionReport_instructionOutcome] at hreport
      cases hstate
      cases hreport
      exact ⟨hrun.afterMicros_eq, hrun.cycles, hmem⟩
  refine ⟨rfl, hcycles, hmem, fun r hne => ?_⟩
  by_contra hnot
  exact hne (reg_eq_of_not_changedWithin fun hc => hnot ((hmem r).2 hc))

/-! ### The table of microcycles and counters (R124, R125) -/

/-- The row of an instruction that completes. -/
theorem stepInstruction_completes {s s' : State} {changed : List Reg} {n : Nat} {cnt : Profiler}
    (h : stepInstruction s = (instructionOutcome s' changed n, s')) (hfault : s'.fault = false) (ht : s'.t = .t0)
    (hcnt : s'.cnt = cnt) :
    ∃ changed, (stepInstruction s).1 = .okInstruction changed n ∧ (stepInstruction s).2.t = .t0 ∧
      (stepInstruction s).2.cnt = cnt := by
  rw [h]
  exact ⟨changed, by simp [instructionOutcome, hfault], ht, hcnt⟩

/-- Settles O15: the run of the word fetched, by its row. -/
theorem microcyclesAndCountersPerInstruction : Obligations.MicrocyclesAndCountersPerInstruction := by
  intro s hrun ht
  obtain ⟨s', hexec, hrest⟩ := exec_decode_run (s := s.fetched (s.read s.pc)) hrun rfl
  obtain ⟨changed, heq, -⟩ := (InstructionRun.of_t0 ht hrest).stepInstruction_eq
  have hir : (s.fetched (s.read s.pc)).ir = s.read s.pc := rfl
  cases hd : descriptor (s.read s.pc) with
  | registerRef en =>
    simp only [decode, hir, hd, exec_decodeEnables] at hexec heq
    cases hexec
    exact stepInstruction_completes heq ((t3Rri_fault _ _).trans hrun.2) rfl (t3Rri_cnt _ _)
  | unmapped top =>
    simp only [decode, hir, hd] at hexec heq
    cases hexec
    rw [heq]
    exact ⟨changed, rfl, rfl, rfl⟩
  | memoryRef m a =>
    simp only [decode, hir, hd] at hexec heq
    cases m with
    | and | add | lda | sta | bun | bsa =>
      cases hexec
      exact stepInstruction_completes heq hrun.2 rfl rfl
    | isz =>
      cases hexec
      exact stepInstruction_completes heq ((t5Isz_fault _).trans hrun.2) rfl (t5Isz_cnt _)

end Sys2Proof.Machine
end

section
/-! PROOFS. The memory-reference instructions: each one's word, its own microcycles, its whole effect from T3 on, and
the two programs of theirs that run for ever (R74 to R81). -/

namespace Sys2Proof.Machine

/-! ### Shared rules -/

/-- T4 of the mnemonics that read their operand: the word at AR to DR, counted (R64). -/
theorem micro_readOperand {s : State} {m : MriOp} {a : Address} (hrun : Running s)
    (hd : descriptor s.ir = .memoryRef m a) (hm : readsOperand m = true) (ht : s.t = .t4) :
    micro s = .next { s with
      dr := s.read s.ar, t := .t5
      cnt := { s.cnt with cycles := s.cnt.cycles + 1, reads := s.cnt.reads + 1 } } :=
  micro_of_microStep hrun (.operand ht m a hd ((readsOperand_iff m).1 hm))

/-- What a store makes of the words of memory (R29, R31). -/
theorem read_of_store {s s' : State} {a : Address} {v : Word} (hmem : s'.mem = memWrite s.mem a.toNat v) :
    (s.mem.wf = true → s'.read a = v) ∧ ∀ b : Address, b ≠ a → s'.read b = s.read b := by
  have hread (b : Address) : s'.read b = (s.write a v).read b := State.read_of_mem_eq _ _ hmem b
  exact ⟨fun hw => (hread a).trans (s.read_write_same a v hw),
    fun b hb => (hread b).trans (s.read_write_other a b v hb)⟩

/-- A relation between the number of steps and the state that holds at the start, and that every step carries on, holds
all along the run. -/
theorem core_run_invariant {P : Nat → State → Prop}
    (hstep : ∀ k s, P k s → ∃ s', step s = .next s' ∧ P (k + 1) s') {s : State} (h0 : P 0 s) (k : Nat) :
    ∃ s', Sys2Proof.core.run k s = .next s' ∧ P k s' := by
  suffices h : ∀ n s, P n s → ∃ s', Sys2Proof.core.run k s = .next s' ∧ P (n + k) s' by
    simpa using h 0 s h0
  clear h0 s
  induction k with
  | zero => exact fun n s hs => ⟨s, rfl, hs⟩
  | succ k ih =>
    intro n s hs
    obtain ⟨s1, hnext, hs1⟩ := hstep n s hs
    obtain ⟨s', hrun, hs'⟩ := ih (n + 1) s1 hs1
    exact ⟨s', (core_run_next k s s1 hnext).trans hrun, by rwa [Nat.add_right_comm] at hs'⟩

/-! ### AND, and the all-zero memory -/

/-- What is left of a block after so many instructions AND 000: PC alone has moved on, and memory is as before. -/
structure IdledFor (s : State) (k : Nat) (s' : State) : Prop where
  running : Running s'
  t : s'.t = .t0
  mem : s'.mem = s.mem
  pc : s'.pc = s.pc + BitVec.ofNat 12 k

/-- At a word 0x0000 the block idles for one instruction more: AND 000 stores nothing and does not branch (R75). -/
theorem IdledFor.succ {s s1 : State} {k : Nat} (hzero : ∀ a : Address, s.read a = 0x0000#16) (h : IdledFor s k s1) :
    ∃ s', step s1 = .next s' ∧ IdledFor s (k + 1) s' := by
  have hword : s1.read s1.pc = mriWord .and 0x000#12 := (s.read_of_mem_eq s1 h.mem _).trans (hzero _)
  refine ⟨_, step_of_mriWord h.running h.t hword, h.running, rfl, h.mem, ?_⟩
  calc s1.pc + 1#12 = s.pc + BitVec.ofNat 12 k + 1#12 := congrArg (· + 1#12) h.pc
    _ = s.pc + BitVec.ofNat 12 (k + 1) := by rw [BitVec.add_assoc, ← BitVec.ofNat_add]

/-- Settles O16: the all-zero memory by induction on the steps, each of which is AND 000. -/
theorem andMasksTheAccumulator : Obligations.AndMasksTheAccumulator := by
  refine ⟨decode_mriWord .and, fun s a hrun hd => ⟨micro_readOperand hrun hd rfl,
    fun ht => micro_of_microStep hrun (.and ht a hd)⟩, fun addr s => rfl, fun s hrun ht hzero k => ?_⟩
  obtain ⟨s', hs', hidle⟩ := core_run_invariant (P := IdledFor s) (fun _ _ => IdledFor.succ hzero)
    ⟨hrun, ht, rfl, (BitVec.add_zero s.pc).symm⟩ k
  have hword : s'.read s'.pc = mriWord .and 0x000#12 := (s.read_of_mem_eq s' hidle.mem _).trans (hzero _)
  exact ⟨s', hs', hidle.pc, hidle.running.1, hidle.running.2, hword ▸ decode_mriWord .and 0x000#12⟩

/-! ### BUN, and the branch to itself -/

/-- What is left of a block after so many branches of a BUN to itself: 5 cycles for each (R79). -/
structure LoopedFor (s : State) (k : Nat) (s' : State) : Prop where
  running : Running s'
  t : s'.t = .t0
  mem : s'.mem = s.mem
  pc : s'.pc = s.pc
  cycles : s'.cnt.cycles = s.cnt.cycles + 5 * k

/-- At its own address a BUN brings the block back to where it was, 5 cycles later. -/
theorem LoopedFor.succ {s s1 : State} {k : Nat} (hbun : s.read s.pc = mriWord .bun s.pc) (h : LoopedFor s k s1) :
    ∃ s', step s1 = .next s' ∧ LoopedFor s (k + 1) s' := by
  have hword : s1.read s1.pc = mriWord .bun s.pc := by rw [s.read_of_mem_eq s1 h.mem, h.pc, hbun]
  exact ⟨_, step_of_mriWord h.running h.t hword, h.running, rfl, h.mem, rfl, congrArg (· + 5) h.cycles⟩

/-- Settles O20: the loop by induction on the steps, each of which is the BUN. -/
theorem bunBranches : Obligations.BunBranches := by
  refine ⟨decode_mriWord .bun, fun s a hrun hd ht => micro_of_microStep hrun (.bun ht a hd), fun addr s => rfl,
    fun s hrun ht hbun k => ?_⟩
  obtain ⟨s', hs', hloop⟩ := core_run_invariant (P := LoopedFor s) (fun _ _ => LoopedFor.succ hbun)
    ⟨hrun, ht, rfl, rfl, rfl⟩ k
  exact ⟨s', hs', hloop.pc, hloop.running.1, hloop.running.2, hloop.cycles⟩

/-! ### ADD and LDA -/

/-- The sum of ADD is that of words, modulo 65536 (R76). -/
theorem addWord_eq_add (a b : Word) : addWord a b = a + b :=
  BitVec.eq_of_toNat_eq (by rw [addWord_toNat, BitVec.toNat_add])

/-- Settles O17: AC by `addWord`, E by `addCarry`, neither of which takes the old E. -/
theorem addSumsWithCarryOut : Obligations.AddSumsWithCarryOut := by
  refine ⟨decode_mriWord .add, fun s a hrun hd => ⟨micro_readOperand hrun hd rfl, fun ht =>
    ⟨addWord s.ac s.dr, addWord_toNat s.ac s.dr, micro_of_microStep hrun (.add ht a hd)⟩⟩, fun addr s => ?_⟩
  rw [← addWord_eq_add]
  rfl

/-- Settles O18, by the transitions at T4 and T5. -/
theorem ldaLoadsTheAccumulator : Obligations.LdaLoadsTheAccumulator :=
  ⟨decode_mriWord .lda, fun _ a hrun hd => ⟨micro_readOperand hrun hd rfl,
    fun ht => micro_of_microStep hrun (.lda ht a hd)⟩, fun _ _ => rfl⟩

/-! ### STA, BSA and ISZ -/

/-- Settles O19: the store of T4, and what it makes of the words of memory. -/
theorem staStoresTheAccumulator : Obligations.StaStoresTheAccumulator :=
  ⟨decode_mriWord .sta, fun _ a hrun hd ht => micro_of_microStep hrun (.sta ht a hd),
    fun _ _ => ⟨_, rfl, rfl, read_of_store rfl⟩⟩

/-- T4 of BSA as one record, the return address by its two fields (R80). -/
theorem t4Bsa_eq (s : State) :
    t4Bsa s = { s with
      mem := memWrite s.mem s.ar.toNat (0x0#4 ++ s.pc), pc := s.ar + 1#12, t := .t0
      cnt := { s.cnt with cycles := s.cnt.cycles + 1, instructions := s.cnt.instructions + 1 } } := by
  rw [t4Bsa, setWidth_eq_append]
  rfl

/-- Settles O21: the return address is stored as the word of an AND of it. -/
theorem bsaSavesTheReturnAddress : Obligations.BsaSavesTheReturnAddress := by
  refine ⟨decode_mriWord .bsa, fun s a hrun hd ht => ?_, fun addr s => ?_⟩
  · rw [micro_of_microStep hrun (.bsa ht a hd), t4Bsa_eq]
  · have hexec : exec (.bsa addr) s = .next (t4Bsa (t3Address addr s)) := rfl
    rw [t4Bsa_eq] at hexec
    refine ⟨_, hexec, rfl, (read_of_store rfl).imp_left fun hsame hw => ?_⟩
    have hnum : (mriWord .and s.pc).toNat = s.pc.toNat := by simp [mriWord_toNat, mriOpcode]
    rw [hsame hw]
    exact ⟨hnum, decode_mriWord .and s.pc⟩

/-- T5 of ISZ as one record, its skip by the word read (R81). -/
theorem t5Isz_eq (s : State) :
    t5Isz s = { s with
      mem := memWrite s.mem s.ar.toNat (s.dr + 1#16), t := .t0
      pc := if s.dr = 0xFFFF#16 then s.pc + 1#12 else s.pc
      cnt := { s.cnt with
        cycles := s.cnt.cycles + 1, instructions := s.cnt.instructions + 1, writes := s.cnt.writes + 1 } } := by
  by_cases hmax : s.dr = 0xFFFF#16
  · rw [t5Isz, (iszSkips_iff s.dr).2 hmax, if_pos hmax]
    rfl
  · rw [t5Isz, Bool.eq_false_iff.2 (mt (iszSkips_iff s.dr).1 hmax), if_neg hmax]
    rfl

/-- Settles O22: the store and the skip of T5, and what the store makes of the words of memory. -/
theorem iszIncrementsAndSkipsOnZero : Obligations.IszIncrementsAndSkipsOnZero := by
  refine ⟨decode_mriWord .isz, fun s a hrun hd => ⟨micro_readOperand hrun hd rfl, fun ht => ?_⟩, fun addr s => ?_⟩
  · rw [micro_of_microStep hrun (.isz ht a hd), t5Isz_eq]
  · have hexec : exec (.isz addr) s = .next (t5Isz (t4ReadOperand (t3Address addr s))) := rfl
    rw [t5Isz_eq] at hexec
    refine ⟨_, hexec, rfl, (read_of_store rfl).imp_left fun hsame hw => ?_⟩
    rw [hsame hw]
    exact BitVec.toNat_add (s.read addr) 1#16

end Sys2Proof.Machine
end

section
/-! PROOFS. What a register-reference word does: the micro-operations it enables, one after the other (R82); the two
rotations as one ring of AC and E (R87, R88); the tests and the added skips (R90 to R96). -/

namespace Sys2Proof.Machine

/-! ### The word and its micro-operations (R82) -/

/-- What one micro-operation does (R83 to R94). -/
def microOf : MicroOp → State → State
  | .cla => microCla
  | .cle => microCle
  | .cma => microCma
  | .cme => microCme
  | .cir => microCir
  | .cil => microCil
  | .inc => microInc
  | .spa => microSpa
  | .sna => microSna
  | .sza => microSza
  | .sze => microSze
  | .hlt => microHlt

/-- Going through a list under the enable bits is going through what they select of it. -/
theorem foldl_applyIf_enabled (en : Enables) (ops : List MicroOp) (s : State) :
    ops.foldl (fun s op => s.applyIf (enabled en op) (microOf op)) s =
      (ops.filter (enabled en)).foldl (fun s op => microOf op s) s := by
  rw [List.foldl_filter]
  rfl

/-- execRRI applies the enabled micro-operations in list order (R82). -/
theorem execRRI_eq_foldl (en : Enables) (s : State) :
    execRRI en s = (enabledOps en).foldl (fun s op => microOf op s) s :=
  foldl_applyIf_enabled en MicroOp.all s

/-- Whatever its enable bits, a register-reference word's meaning is its T3 microcycle (R63, R82). -/
theorem exec_decode_rriWord (en : Enables) (s : State) : exec (decode (rriWord en)) s = .next (t3Rri en s) := by
  rw [decode_rriWord, exec_decodeEnables]

/-- A word whose bits enable these micro-operations performs them in this order (R82). -/
theorem exec_decode_rriWord_of_ops {en : Enables} {ops : List MicroOp} (h : enabledOps en = ops) (s : State) :
    exec (decode (rriWord en)) s = .next (ops.foldl (fun s op => microOf op s) s.tick).complete := by
  rw [exec_decode_rriWord, t3Rri, execRRI_eq_foldl, h]

/-! ### The rotations (R87, R88) -/

theorem cirWord_eq (ac : Word) (e : Bool) : cirWord ac e = (ac >>> 1) ||| (if e then 0x8000#16 else 0x0000#16) := by
  refine BitVec.eq_of_getLsbD_eq fun i hi => ?_
  rw [cirWord_getLsbD]
  by_cases h15 : i = 15
  · subst h15
    cases e <;> simp
  · have htop : (0x8000#16).getLsbD i = false := by
      rw [show 0x8000#16 = BitVec.twoPow 16 15 from rfl, BitVec.getLsbD_twoPow]
      simp [Ne.symm h15]
    have hlt : i < 15 := by omega
    cases e <;> simp [h15, hlt, htop]

theorem cilWord_eq (ac : Word) (e : Bool) : cilWord ac e = (ac <<< 1) ||| (if e then 0x0001#16 else 0x0000#16) := by
  refine BitVec.eq_of_getLsbD_eq fun i hi => ?_
  rw [cilWord_getLsbD]
  cases i with
  | zero => cases e <;> simp
  | succ i =>
    have hlt : i < 16 := by omega
    cases e <;> simp [hi, hlt, Nat.lt_of_succ_lt_succ hi]

/-- CIL undoes CIR. -/
theorem microCil_microCir (s : State) : microCil (microCir s) = s := by
  have hac : cilWord (cirWord s.ac s.e) (cirCarry s.ac) = s.ac := by
    refine BitVec.eq_of_getLsbD_eq fun i hi => ?_
    rw [cilWord_getLsbD]
    cases i with
    | zero => simp [cirCarry]
    | succ i =>
      have hlt : i < 15 := by omega
      rw [Nat.add_sub_cancel, cirWord_getLsbD]
      simp [hlt, hlt.ne, Nat.add_comm]
  have he : cilCarry (cirWord s.ac s.e) = s.e := cirWord_getLsbD s.ac s.e 15
  simp only [microCil, microCir, hac, he]

/-- Rotating a ring of 17 bits right by one brings to each bit the next one. -/
theorem getLsbD_rotateRight_one (r : BitVec 17) {i : Nat} (hi : i < 17) :
    (r.rotateRight 1).getLsbD i = r.getLsbD ((i + 1) % 17) := by
  rw [BitVec.getLsbD_rotateRight]
  by_cases h16 : i = 16
  · subst h16
    rfl
  · have hlt : i < 16 := by omega
    have hmod : (i + 1) % 17 = 1 + i := by omega
    simp [hlt, hmod]

theorem getLsbD_rotateRight_one_iterate (n : Nat) (r : BitVec 17) {i : Nat} (hi : i < 17) :
    ((fun r : BitVec 17 => r.rotateRight 1)^[n] r).getLsbD i = r.getLsbD ((i + n) % 17) := by
  induction n generalizing r with
  | zero => simp [Nat.mod_eq_of_lt hi]
  | succ n ih =>
    rw [Function.iterate_succ_apply, ih, getLsbD_rotateRight_one r (Nat.mod_lt _ (by decide)), Nat.mod_add_mod]
    rfl

/-- AC and E set from one ring of 17 bits, E on top. -/
def State.withRing (s : State) (r : BitVec 17) : State := { s with ac := r.setWidth 16, e := r.getLsbD 16 }

/-- Every state has its own ring. -/
theorem withRing_cons (s : State) : s.withRing (BitVec.cons s.e s.ac) = s := by
  have he : (BitVec.cons s.e s.ac).getLsbD 16 = s.e := by rw [BitVec.getLsbD_cons, if_pos rfl]
  simp only [State.withRing, BitVec.setWidth_cons, he]

/-- CIR rotates the ring right by one (R87). -/
theorem withRing_rotateRight_one (s : State) (r : BitVec 17) :
    s.withRing (r.rotateRight 1) = microCir (s.withRing r) := by
  have hac : (r.rotateRight 1).setWidth 16 = cirWord (r.setWidth 16) (r.getLsbD 16) := by
    refine BitVec.eq_of_getLsbD_eq fun i hi => ?_
    rw [cirWord_getLsbD, BitVec.getLsbD_setWidth, getLsbD_rotateRight_one r (by omega)]
    by_cases h15 : i = 15
    · simp [h15]
    · have hlt : i < 15 := by omega
      have hnext : 1 + i < 16 := by omega
      have hmod : (i + 1) % 17 = 1 + i := by omega
      simp [h15, hlt, hi, hnext, hmod]
  have he : (r.rotateRight 1).getLsbD 16 = cirCarry (r.setWidth 16) := by
    rw [getLsbD_rotateRight_one r (by decide)]
    simp [cirCarry]
  simp only [microCir, State.withRing, hac, he]

/-- Seventeen rotations bring each of the 17 bits of AC and E back to its place (R87). -/
theorem microCir_iterate_seventeen (s : State) : microCir^[17] s = s := by
  have hring : (fun r : BitVec 17 => r.rotateRight 1)^[17] (BitVec.cons s.e s.ac) = BitVec.cons s.e s.ac :=
    BitVec.eq_of_getLsbD_eq fun i hi => by
      rw [getLsbD_rotateRight_one_iterate 17 _ hi, Nat.add_mod_right, Nat.mod_eq_of_lt hi]
  have hsemi : Function.Semiconj s.withRing (fun r => r.rotateRight 1) microCir := withRing_rotateRight_one s
  calc microCir^[17] s = microCir^[17] (s.withRing (BitVec.cons s.e s.ac)) := by rw [withRing_cons]
    _ = s.withRing ((fun r : BitVec 17 => r.rotateRight 1)^[17] (BitVec.cons s.e s.ac)) :=
      (hsemi.iterate_right 17 _).symm
    _ = s := by rw [hring, withRing_cons]

/-- Seventeen CIL undo seventeen CIR, which change nothing (R88). -/
theorem microCil_iterate_seventeen (s : State) : microCil^[17] s = s :=
  calc microCil^[17] s = microCil^[17] (microCir^[17] s) := by rw [microCir_iterate_seventeen]
    _ = s := Function.LeftInverse.iterate microCil_microCir 17 s

/-! ### The complement and the tests (R85, R90 to R93) -/

theorem not_eq_sub (ac : Word) : ~~~ac = 0xFFFF#16 - ac := (BitVec.allOnes_sub_eq_not ac).symm

/-- CMA INC makes the two's-complement negation (R85). -/
theorem not_add_one_toNat (ac : Word) : (~~~ac + 1#16).toNat = (65536 - ac.toNat) % 65536 := by
  rw [← BitVec.neg_eq_not_add, BitVec.toNat_neg]

theorem acNegative_iff (ac : Word) : acNegative ac = true ↔ 32768 ≤ ac.toNat := by
  rw [acNegative, ← BitVec.msb_eq_getLsbD_last, BitVec.msb_eq_true_iff_two_mul_ge]
  omega

theorem acPositive_iff (ac : Word) : acPositive ac = true ↔ ac.toNat < 32768 := by
  rw [acPositive_eq_not_acNegative, Bool.not_eq_true', ← Bool.not_eq_true, acNegative_iff, Nat.not_le]

theorem eZero_iff (e : Bool) : eZero e = true ↔ e = false := by simp [eZero]

/-! ### The skips of one word (R90 to R93, R96) -/

/-- How many of the enabled skips have their condition, for an AC and an E. -/
def skipCount (en : Enables) (ac : Word) (e : Bool) : Nat :=
  (if enabled en .spa && acPositive ac then 1 else 0) + (if enabled en .sna && acNegative ac then 1 else 0) +
    (if enabled en .sza && acZero ac then 1 else 0) + (if enabled en .sze && eZero e then 1 else 0)

/-- SPA and SNA never skip both. -/
theorem skipCount_le (en : Enables) (ac : Word) (e : Bool) : skipCount en ac e ≤ 3 := by
  have hone (b : Bool) : (if b then 1 else 0) ≤ 1 := by cases b <;> decide
  have hspa_sna : (if enabled en .spa && acPositive ac then 1 else 0) +
      (if enabled en .sna && acNegative ac then 1 else 0) ≤ 1 := by
    rw [acPositive_eq_not_acNegative]
    cases acNegative ac with
    | false => simpa using hone (enabled en .spa)
    | true => simpa using hone (enabled en .sna)
  exact Nat.add_le_add (Nat.add_le_add hspa_sna (hone _)) (hone _)

/-- A skip under a condition adds one to the skips before it. -/
theorem nextAddress_if_add (c : Bool) (pc : Address) (n : Nat) :
    (if c then nextAddress (pc + BitVec.ofNat 12 n) else pc + BitVec.ofNat 12 n) =
      pc + BitVec.ofNat 12 (n + if c then 1 else 0) := by
  cases c
  · rfl
  · rw [if_pos rfl, if_pos rfl, nextAddress, BitVec.ofNat_add, BitVec.add_assoc]

/-- The skips of a word test the AC and the E that it leaves, and add up (R96). -/
theorem execRRI_pc (en : Enables) (s : State) :
    (execRRI en s).pc = s.pc + BitVec.ofNat 12 (skipCount en (execRRI en s).ac (execRRI en s).e) := by
  have hfirst (c : Bool) : (if c then nextAddress s.pc else s.pc) = s.pc + BitVec.ofNat 12 (if c then 1 else 0) := by
    simpa using nextAddress_if_add c s.pc 0
  simp only [execRRI, applyIf_microCla, applyIf_microCle, applyIf_microCma, applyIf_microCme, applyIf_microCir,
    applyIf_microCil, applyIf_microInc, applyIf_microSpa, applyIf_microSna, applyIf_microSza, applyIf_microSze,
    applyIf_microHlt, hfirst, nextAddress_if_add, skipCount]

end Sys2Proof.Machine
end

section
/-! PROOFS. The register-reference instructions: each one's word, its whole effect, and what the words that combine it
with others do (R82 to R96). -/

namespace Sys2Proof.Machine

/-! ### Every register-reference word -/

/-- Settles O33: the T3 microcycle, stage by stage, the rotations by their shifts. -/
theorem registerReferenceComposition : Obligations.RegisterReferenceComposition := by
  intro en s ac1 e1 ac2 e2 ac3 e3 ac4 e4 ac5 pc1 pc2 pc3 pc4 s'
  have hstages : t3Rri en s = s' := by
    simp only [t3Rri, execRRI, applyIf_microCla, applyIf_microCle, applyIf_microCma, applyIf_microCme,
      applyIf_microCir, applyIf_microCil, applyIf_microInc, applyIf_microSpa, applyIf_microSna, applyIf_microSza,
      applyIf_microSze, applyIf_microHlt, cirWord_eq, cilWord_eq]
    rfl
  rw [← hstages]
  refine ⟨exec_decode_rriWord en s, rfl, fun hrun ht hir => ?_⟩
  have hd : descriptor s.ir = .registerRef en := hir ▸ descriptor_rriWord en
  exact micro_of_microStep hrun (.registerRef ht en hd)

/-- Settles O34: the composition keeps those elements, and the end of the instruction counts. -/
theorem registerReferenceFrame : Obligations.RegisterReferenceFrame := fun en s =>
  ⟨t3Rri en s, exec_decode_rriWord en s, rfl, by simp, by simp, by simp [t3Rri], by simp [t3Rri], by simp [t3Rri],
    by simp, by simp [t3Rri], by simp, by simp⟩

/-- Settles O35: NOP by its row, the skips of a word by their count. -/
theorem nopAndAddedSkips : Obligations.NopAndAddedSkips := by
  refine ⟨decode_rriWord 0#12, fun s => rfl, fun s hrun ht hword => ?_, fun en s => ?_⟩
  · have hstep : step s = exec .nop (s.fetched 0x7000#16) :=
      (step_of_word hrun ht hword).trans (congrArg (exec · _) (decode_rriWord 0#12))
    exact ⟨_, hstep, rfl, rfl, rfl, rfl, hrun.1, hrun.2, rfl, rfl⟩
  · exact ⟨t3Rri en s, exec_decode_rriWord en s, _, skipCount_le en _ _, execRRI_pc en s.tick, rfl⟩

/-! ### The clears and the complements (R83 to R86) -/

/-- Settles O24: CLA by its row, each other word by the two micro-operations it enables. -/
theorem claClearsTheAccumulator : Obligations.ClaClearsTheAccumulator :=
  ⟨decode_canonicalWord .cla, fun s => ⟨rfl,
    ⟨_, exec_decode_rriWord_of_ops (en := 0xA00#12) (ops := [.cla, .cma]) rfl s, BitVec.not_zero, rfl⟩,
    ⟨_, exec_decode_rriWord_of_ops (en := 0x820#12) (ops := [.cla, .inc]) rfl s, rfl, rfl⟩⟩⟩

/-- Settles O25: with E clear, a rotation is a shift. -/
theorem cleClearsE : Obligations.CleClearsE := by
  refine ⟨decode_canonicalWord .cle, fun s => ⟨rfl,
    ⟨_, exec_decode_rriWord_of_ops (en := 0x440#12) (ops := [.cle, .cil]) rfl s, ?_, rfl⟩,
    ⟨_, exec_decode_rriWord_of_ops (en := 0x480#12) (ops := [.cle, .cir]) rfl s, ?_, rfl⟩⟩⟩
  · exact (cilWord_eq s.ac false).trans BitVec.or_zero
  · exact (cirWord_eq s.ac false).trans BitVec.or_zero

/-- Settles O26: the complement as a difference, and with one added as a negation. -/
theorem cmaComplementsTheAccumulator : Obligations.CmaComplementsTheAccumulator := by
  refine ⟨decode_canonicalWord .cma, fun s => ⟨?_,
    _, exec_decode_rriWord_of_ops (en := 0x220#12) (ops := [.cma, .inc]) rfl s, not_add_one_toNat s.ac, rfl⟩⟩
  rw [← not_eq_sub]
  rfl

/-- Settles O27: CME by its row, CLE CME by its two micro-operations. -/
theorem cmeComplementsE : Obligations.CmeComplementsE := by
  refine ⟨decode_canonicalWord .cme, fun s => ⟨?_,
    _, exec_decode_rriWord_of_ops (en := 0x500#12) (ops := [.cle, .cme]) rfl s, rfl, rfl⟩⟩
  rw [Bool.xor_true]
  rfl

/-! ### The rotations (R87, R88) -/

/-- CIR before CIL, as in one word (R82), change nothing but T and the counters. -/
theorem exec_cirCil (s : State) : exec (decode 0x70C0#16) s = .next (microCil (microCir s.tick)).complete :=
  exec_decode_rriWord_of_ops (en := 0x0C0#12) (ops := [.cir, .cil]) rfl s

/-- Settles O28: the rotation by its shift, seventeen by the ring, CIR CIL by its inverse. -/
theorem cirRotatesRightThroughE : Obligations.CirRotatesRightThroughE := by
  refine ⟨decode_canonicalWord .cir, fun s => ?_, microCir_iterate_seventeen, fun s => ⟨s.tick.complete, ?_, rfl, rfl⟩⟩
  · rw [← cirWord_eq]
    rfl
  · rw [exec_cirCil, microCil_microCir]

/-- Settles O29: the rotation by its shift, seventeen as the inverse of seventeen CIR. -/
theorem cilRotatesLeftThroughE : Obligations.CilRotatesLeftThroughE := by
  refine ⟨decode_canonicalWord .cil, fun s => ?_, microCil_iterate_seventeen, exec_cirCil⟩
  rw [← cilWord_eq]
  rfl

/-! ### INC and the skips (R89 to R93) -/

/-- A skip whose test says a proposition, as a whole instruction (R90 to R93). -/
theorem complete_skipIf {b : Bool} {p : Prop} [Decidable p] (h : b = true ↔ p) (s : State) :
    (s.tick.applyIf b State.skip).complete = { s with
      pc := if p then s.pc + 1#12 else s.pc, t := .t0
      cnt := { s.cnt with cycles := s.cnt.cycles + 1, instructions := s.cnt.instructions + 1 } } := by
  by_cases hp : p
  · rw [h.2 hp, if_pos hp]
    rfl
  · rw [Bool.eq_false_iff.2 (mt h.1 hp), if_neg hp]
    rfl

/-- Settles O30: INC by its row; INC SZA at the word that wraps, by the test of the sum. -/
theorem incLeavesEUnchanged : Obligations.IncLeavesEUnchanged := by
  refine ⟨decode_canonicalWord .inc, fun s => ⟨⟨s.ac + 1#16, BitVec.toNat_add s.ac 1#16, rfl⟩, fun hmax => ?_⟩⟩
  have hwrap : s.ac + 1#16 = 0x0000#16 := by rw [hmax]; rfl
  refine ⟨_, exec_decode_rriWord_of_ops (en := 0x024#12) (ops := [.inc, .sza]) rfl s, ?_, ?_, ?_⟩ <;>
    simp [microOf, microInc, microSza, hwrap, acZero, nextAddress]

/-- Settles O31: each skip by what its test says; the three combinations by the tests they make. -/
theorem skipsTestOneCondition : Obligations.SkipsTestOneCondition := by
  refine ⟨decode_canonicalWord .spa, decode_canonicalWord .sna, decode_canonicalWord .sza, decode_canonicalWord .sze,
    fun s => ⟨?spa, ?sna, ?sza, ?sze, ?spaSna, ?claSza, fun he => ?cmeSze⟩⟩
  case spa => exact congrArg _ (complete_skipIf (acPositive_iff s.ac) s)
  case sna => exact congrArg _ (complete_skipIf (acNegative_iff s.ac) s)
  case sza => exact congrArg _ (complete_skipIf (acZero_iff s.ac) s)
  case sze => exact congrArg _ (complete_skipIf (eZero_iff s.e) s)
  case spaSna =>
    refine ⟨_, exec_decode_rriWord_of_ops (en := 0x018#12) (ops := [.spa, .sna]) rfl s, ?_⟩
    cases hneg : acNegative s.ac <;>
      simp [microOf, microSpa, microSna, acPositive_eq_not_acNegative, hneg, nextAddress]
  case claSza =>
    exact ⟨_, exec_decode_rriWord_of_ops (en := 0x804#12) (ops := [.cla, .sza]) rfl s, rfl, rfl⟩
  case cmeSze =>
    refine ⟨_, exec_decode_rriWord_of_ops (en := 0x102#12) (ops := [.cme, .sze]) rfl s, ?_, ?_⟩ <;>
      simp [microOf, microCme, microSze, eZero, he, nextAddress]

/-! ### HLT (R94) -/

/-- Without its bit 0 a word enables what it did but HLT. -/
theorem enabled_without_hlt (en : Enables) (op : MicroOp) :
    enabled (en &&& ~~~1#12) op = (enabled en op && decide (op ≠ .hlt)) := by
  cases op <;> simp [enabled, Config.rriBitMap]

/-- A word with HLT does what it does without, then sets HALT (R94). -/
theorem execRRI_of_hlt {en : Enables} (hhlt : enabled en .hlt = true) (s : State) :
    execRRI en s = microHlt (execRRI (en &&& ~~~1#12) s) := by
  simp only [execRRI, enabled_without_hlt, hhlt]
  simp

/-- Settles O32: HLT is the last micro-operation of its word, and a halted block stops every step. -/
theorem hltHaltsAndSuppressesNothing : Obligations.HltHaltsAndSuppressesNothing := by
  refine ⟨decode_canonicalWord .hlt, fun s => rfl, fun en s hhlt => ?_⟩
  have hlast : t3Rri en s = { (execRRI (en &&& ~~~1#12) s.tick).complete with halt := true } :=
    congrArg State.complete (execRRI_of_hlt hhlt s.tick)
  have hstop : stopped (t3Rri en s) = some .halted := stopped_of_halt (by rw [hlast])
  exact ⟨t3Rri en s, exec_decode_rriWord en s, hlast, step_of_stopped _ _ hstop, stepMicro_of_stopped _ _ hstop,
    stepInstruction_of_stopped _ _ hstop⟩

end Sys2Proof.Machine
end

section
/-! PROOFS. Instruction boundaries: stepInstruction stops at the first stepMicro that ends the instruction (R67, R70,
R111). -/

namespace Sys2Proof.Machine

theorem InstructionRun.one_le {n : Nat} {s s' : State} (h : InstructionRun n s s') : 1 ≤ n := by
  cases h with
  | last | more => exact Nat.le_add_left 1 _

theorem InstructionRun.ended {n : Nat} {s s' : State} (h : InstructionRun n s s') : InstructionEnded s' := by
  induction h with
  | last _ hend => exact hend
  | more _ _ _ ih => exact ih

/-- No stepMicro before the last of a run ends the instruction (R70). -/
theorem InstructionRun.not_ended_before {n : Nat} {s s' : State} (h : InstructionRun n s s') {k : Nat}
    (hk : k + 1 < n) : ¬InstructionEnded (afterMicros (k + 1) s) := by
  induction h generalizing k with
  | last => omega
  | more h hgo _ ih =>
    rw [afterMicros_succ_of_next k _ _ h]
    cases k with
    | zero => exact hgo
    | succ k => exact ih (Nat.lt_of_succ_lt_succ hk)

/-- Where the invariant holds, an instruction ends at T0 or with FAULT: a halted block shows T0 (R69). -/
theorem State.Inv.t0_or_fault {s : State} (hi : s.Inv) (hend : InstructionEnded s) : s.t = .t0 ∨ s.fault = true := by
  rcases hend with hfault | hhalt | ht
  · exact .inr hfault
  · exact .inl (hi.halted hhalt).1
  · exact .inl ht

/-- Settles O14: the invariant gives the first microcycle, and stepInstruction follows the run it begins. -/
theorem stepInstructionIsStepMicroRepeated : Obligations.StepInstructionIsStepMicroRepeated := by
  intro s hi hrun
  obtain ⟨s1, hfirst, -⟩ := microcycleKeepsTheInvariant s hi hrun
  obtain ⟨n, s', h⟩ := exists_instructionRun hfirst
  obtain ⟨changed, heq, -⟩ := h.stepInstruction_eq
  have hstate : (runCommand .stepInstruction s).2 = s' := congrArg Prod.snd heq
  have hi' : s'.Inv := hstate ▸ runCommand_keeps_inv .stepInstruction s hi
  rw [hstate]
  refine ⟨n, h.one_le, h.le_microcyclesLeft.trans (microcyclesLeft_le s.t), h.afterMicros_eq.symm,
    hi'.t0_or_fault h.ended, fun k hk hkn => ?_⟩
  obtain ⟨k, rfl⟩ := Nat.exists_eq_add_of_le' hk
  have hgo := h.not_ended_before hkn
  exact ⟨fun ht => hgo (.of_t0 ht), running_of_not_ended hgo⟩

end Sys2Proof.Machine
end

section
/-! PROOFS. What stops the block: HALT, FAULT with the unmapped words that set it, and the configuration (R97 to
R101). -/

namespace Sys2Proof.Machine

/-- Settles O8, by the guard of every step with HALT set; the other commands do not step. -/
theorem haltedStepsChangeNothing : Obligations.HaltedStepsChangeNothing := by
  intro s hhalt
  have hstop : stopped s = some .halted := stopped_of_halt hhalt
  exact ⟨micro_of_stopped s _ hstop, step_of_stopped s _ hstop, stepMicro_of_stopped s _ hstop,
    stepInstruction_of_stopped s _ hstop, fun _ => rfl, rfl, fun _ => rfl⟩

/-- The words of the opcodes 0x8 to 0xF are unmapped (R45, R50). -/
theorem descriptor_of_opcodeTop_ge {w : Word} (h : 8 ≤ (opcodeTop w).toNat) :
    descriptor w = .unmapped (opcodeTop w) := by
  have hbit : (opcodeTop w ++ low12 w).getLsbD 15 = true := getLsbD_15_append h (low12 w)
  rw [word_eq_fields] at hbit
  exact descriptor_unmapped w hbit

/-- T3 of an unmapped word is the microcycle that sets FAULT, and stepMicro says so (R100). -/
theorem stepMicro_of_unmapped {s : State} {top : BitVec 4} (hrun : Running s) (ht : s.t = .t3)
    (hd : descriptor s.ir = .unmapped top) :
    stepMicro s = (.faultedMicro .unmappedOpcode s.ir s.ar [] (observe s s.tick.raiseFault), s.tick.raiseFault) :=
  stepMicro_of_next s _ (micro_of_microStep hrun (.unmapped ht top hd))

/-- Settles O9: the effect by the row of the word, the first FAULTED by its T3, the repeated ones by the guard. -/
theorem unmappedWordFaults : Obligations.UnmappedWordFaults := by
  refine ⟨fun w s => rfl, fun s hrun ht htop => ?_, fun s hhalt hfault => ?_⟩
  · exact stepMicro_of_unmapped hrun ht (descriptor_of_opcodeTop_ge htop)
  · have hstop : stopped s = some (.faulted .unmappedOpcode s.ir s.ar) := stopped_of_fault hhalt hfault
    exact ⟨step_of_stopped s _ hstop, stepMicro_of_stopped s _ hstop, stepInstruction_of_stopped s _ hstop, rfl,
      fun _ => rfl⟩

/-- Settles O46, row by row: no update but that of an unmapped word writes FAULT, the conditional skips included. -/
theorem noInstructionTraps : Obligations.NoInstructionTraps := by
  refine ⟨fun i s hmapped => ?_, fun w s => ⟨_, rfl, rfl⟩⟩
  cases i with
  | and | add | lda | sta | bun | bsa => exact ⟨_, rfl, rfl⟩
  | isz a => exact ⟨_, rfl, t5Isz_fault (t4ReadOperand (t3Address a s))⟩
  | cla | cle | cma | cme | cir | cil | inc | hlt | nop => exact ⟨_, rfl, rfl⟩
  | spa | sna | sza | sze => exact ⟨_, rfl, s.tick.applyIf_skip_fault _⟩
  | rri en => exact ⟨_, rfl, t3Rri_fault en s⟩
  | unmapped w => exact absurd rfl (hmapped w)

/-- Settles O53: the configuration is looked at before the state and the command. -/
theorem indirectConfigurationIsRefused : Obligations.IndirectConfigurationIsRefused :=
  fun _ _ hindirect => ⟨if_pos hindirect, fun _ => if_pos hindirect⟩

end Sys2Proof.Machine
end

section
/-! PROOFS. The relation of the four counters: a microcycle advances the instruction in flight or ends it, and either
way keeps what the increments of R125 make of the counters (R20, R59, R68). -/

namespace Sys2Proof.Machine

/-- A microcycle inside an instruction moves cycles and reads by as much in the counters as in flight. -/
theorem State.ProfilerConsistent.of_advance {s s' : State} (h : s.ProfilerConsistent)
    (hcycles : s'.cnt.cycles + cyclesInFlight s = s.cnt.cycles + cyclesInFlight s')
    (hreads : s'.cnt.reads + readsInFlight s = s.cnt.reads + readsInFlight s')
    (hinstructions : s'.cnt.instructions = s.cnt.instructions) (hwrites : s'.cnt.writes = s.cnt.writes) :
    s'.ProfilerConsistent := by
  obtain ⟨hcyclesLow, hcyclesHigh, hreadsLow, hreadsHigh, hwritesHigh, hsecond, hcounted⟩ := h
  constructor <;> omega

/-- The end of an instruction, at T3 after 4 cycles and 1 read, at T4 after 5 and 1, at T5 after 6 and 2, where the
last two may count a write (R125). -/
theorem State.ProfilerConsistent.of_completion {s s' : State} {written : Nat} (h : s.ProfilerConsistent)
    (hfault : s.fault = false) (hend : (s.t = .t3 ∧ written = 0) ∨ s.t = .t4 ∨ s.t = .t5) (hwritten : written ≤ 1)
    (ht' : s'.t = .t0) (hfault' : s'.fault = false)
    (hcnt : s'.cnt = ⟨s.cnt.cycles + 1, s.cnt.instructions + 1, s.cnt.reads, s.cnt.writes + written⟩) :
    s'.ProfilerConsistent := by
  obtain ⟨hcyclesLow, hcyclesHigh, hreadsLow, hreadsHigh, hwritesHigh, hsecond, hcounted⟩ := h
  have hcycles' : cyclesInFlight s' = 0 := by simp [cyclesInFlight, ht', hfault']
  have hreads' : readsInFlight s' = 0 := by simp [readsInFlight, ht']
  have hrow : (cyclesInFlight s = 3 ∧ readsInFlight s = 1 ∧ written = 0) ∨
      (cyclesInFlight s = 4 ∧ readsInFlight s = 1) ∨ (cyclesInFlight s = 5 ∧ readsInFlight s = 2) := by
    rcases hend with ⟨ht, hnone⟩ | ht | ht
    · simp [cyclesInFlight, readsInFlight, ht, hfault, hnone]
    · simp [cyclesInFlight, readsInFlight, ht, hfault]
    · simp [cyclesInFlight, readsInFlight, ht, hfault]
  constructor <;> simp only [hcnt, hcycles', hreads'] <;> omega

/-- Every microcycle keeps the relation of the counters. -/
theorem micro_keeps_profilerConsistent (s s' : State) (hp : s.ProfilerConsistent) (h : micro s = .next s') :
    s'.ProfilerConsistent := by
  obtain ⟨hhalt, hfault, hs⟩ := (micro_next_iff s s').1 h
  cases hs with
  | fetchAddr ht | fetchInstr ht | decode ht | address ht | unmapped ht | operand ht =>
    refine hp.of_advance ?_ ?_ rfl rfl
    · simp [t0FetchAddr, t1FetchInstr, t2Decode, t3Address, t4ReadOperand, cyclesInFlight, ht, hfault]
    · simp [t0FetchAddr, t1FetchInstr, t2Decode, t3Address, t4ReadOperand, readsInFlight, ht]
  | registerRef ht en hd =>
    exact hp.of_completion hfault (.inl ⟨ht, rfl⟩) (Nat.zero_le 1) rfl ((t3Rri_fault en s).trans hfault)
      (t3Rri_cnt en s)
  | sta ht => exact hp.of_completion hfault (.inr (.inl ht)) le_rfl rfl hfault rfl
  | bun ht | bsa ht => exact hp.of_completion hfault (.inr (.inl ht)) (Nat.zero_le 1) rfl hfault rfl
  | and ht | add ht | lda ht => exact hp.of_completion hfault (.inr (.inr ht)) (Nat.zero_le 1) rfl hfault rfl
  | isz ht =>
    exact hp.of_completion hfault (.inr (.inr ht)) le_rfl rfl ((t5Isz_fault s).trans hfault) (t5Isz_cnt s)

/-- Settles O45: a step is made of microcycles, and each of them keeps the relation. -/
theorem profilerStaysConsistent : Obligations.ProfilerStaysConsistent := fun s s' hp =>
  ⟨micro_keeps_profilerConsistent s s' hp,
    fun h => (step_micros s s' h).preserves micro_keeps_profilerConsistent hp⟩

end Sys2Proof.Machine
end

section
/-! PROOFS. What loadImage makes of memory: the entries in range are written, the others are dropped, and where the
addresses differ no entry overwrites another (R116, D9). -/

namespace Sys2Proof.Machine

/-- Which entries are dropped and as what: the address is checked first (R116, D9). -/
theorem entryError_eq_some (e : Int × Int) (k : EntryError) :
    entryError e = some k ↔
      (k = .invalidAddress ∧ (e.1 < 0 ∨ 4095 < e.1)) ∨
        (k = .malformedWord ∧ 0 ≤ e.1 ∧ e.1 ≤ 4095 ∧ (e.2 < 0 ∨ 65535 < e.2)) := by
  unfold entryError
  split
  case isTrue haddr => cases k <;> simp <;> omega
  case isFalse haddr =>
    split
    case isTrue hword => cases k <;> simp <;> omega
    case isFalse hword => cases k <;> simp <;> omega

/-- An entry in range is written at its address. -/
theorem memRead_loadEntry_same {m : Memory} {e : Int × Int} (hw : m.wf = true) (hgood : entryError e = none) :
    memRead (loadEntry m e) e.1.toNat = BitVec.ofInt 16 e.2 := by
  simp only [loadEntry, hgood]
  exact memRead_write_same m _ _ hw

/-- An entry that is dropped, or has another address, leaves the word at an address alone. -/
theorem memRead_loadEntry_other {m : Memory} {e : Int × Int} {b : Nat} (h : entryError e = none → e.1 ≠ b) :
    memRead (loadEntry m e) b = memRead m b := by
  cases he : entryError e with
  | some k => simp only [loadEntry, he]
  | none =>
    have hne : b ≠ e.1.toNat := by
      have hrange := (entryError_eq_none e).1 he
      have haddr := h he
      omega
    simp only [loadEntry, he]
    exact memRead_write_other m _ b _ hne

/-- A word at whose address the image has no entry in range stays. -/
theorem memRead_foldl_loadEntry_other {image : Image} {b : Nat} (h : ∀ e ∈ image, entryError e = none → e.1 ≠ b)
    (m : Memory) : memRead (image.foldl loadEntry m) b = memRead m b := by
  induction image generalizing m with
  | nil => rfl
  | cons e rest ih =>
    obtain ⟨he, hrest⟩ := List.forall_mem_cons.1 h
    exact (ih hrest (loadEntry m e)).trans (memRead_loadEntry_other he)

/-- In an image that names no address twice, each entry in range is what its address reads as. -/
theorem memRead_foldl_loadEntry_mem {image : Image} {e : Int × Int} (hnodup : (image.map Prod.fst).Nodup)
    (hmem : e ∈ image) (hgood : entryError e = none) {m : Memory} (hw : m.wf = true) :
    memRead (image.foldl loadEntry m) e.1.toNat = BitVec.ofInt 16 e.2 := by
  induction image generalizing m with
  | nil => cases hmem
  | cons d rest ih =>
    obtain ⟨hd, hnodupRest⟩ := List.nodup_cons.1 hnodup
    rcases List.mem_cons.1 hmem with rfl | hrest
    · have hlater : ∀ d ∈ rest, entryError d = none → d.1 ≠ e.1.toNat := by
        intro d hdrest _ heq
        have hrange := (entryError_eq_none e).1 hgood
        have haddr : d.1 = e.1 := by omega
        exact hd (haddr ▸ List.mem_map_of_mem hdrest)
      exact (memRead_foldl_loadEntry_other hlater _).trans (memRead_loadEntry_same hw hgood)
    · exact ih hnodupRest hrest (loadEntry_wf m d hw)

/-- The dropped list holds the entries with an error, each with its kind (R116). -/
theorem mem_imageDropped (image : Image) (a w : Int) (k : EntryError) :
    ⟨a, w, k⟩ ∈ imageDropped image ↔ (a, w) ∈ image ∧ entryError (a, w) = some k := by
  simp only [imageDropped, List.mem_filterMap, Option.map_eq_some_iff, DroppedEntry.mk.injEq]
  constructor
  · rintro ⟨e, he, k, hk, rfl, rfl, rfl⟩
    exact ⟨he, hk⟩
  · rintro ⟨he, hk⟩
    exact ⟨_, he, k, hk, rfl, rfl, rfl⟩

/-- An integer in the range of a bit vector is the vector's value. -/
theorem toNat_ofInt_of_lt {n : Nat} {a : Int} (h0 : 0 ≤ a) (h : a < (2 ^ n : Nat)) :
    (BitVec.ofInt n a).toNat = a.toNat := by
  rw [BitVec.toNat_ofInt, Int.emod_eq_of_lt h0 h]

/-- Settles O48: memory by induction on the image, the dropped list by the error of each entry. -/
theorem loadImageWritesTheImage : Obligations.LoadImageWritesTheImage := by
  intro image s hnodup
  refine ⟨imageDropped image, loadedState image, rfl, rfl, fun a w hmem ha ha' hw hw' => ?_, fun b hb => ?_,
    fun a w k => ?_⟩
  · have hgood : entryError (a, w) = none := (entryError_eq_none _).2 ⟨⟨ha, ha'⟩, hw, hw'⟩
    have hread : (loadedState image).read (BitVec.ofInt 12 a) = BitVec.ofInt 16 w := by
      rw [State.read, toNat_ofInt_of_lt ha (by omega)]
      exact memRead_foldl_loadEntry_mem hnodup hmem hgood rfl
    rw [hread, toNat_ofInt_of_lt hw (by omega), Int.toNat_of_nonneg hw]
  · refine memRead_foldl_loadEntry_other (fun e he hgood haddr => ?_) []
    have hrange := (entryError_eq_none e).1 hgood
    have hbad := hb e.2 (haddr ▸ he)
    omega
  · rw [mem_imageDropped, entryError_eq_some]

end Sys2Proof.Machine
end

section
/-! PROOFS. Reset: the state it leaves, what the block does next, and that a block with no image never halts (R113 to
R119). -/

namespace Sys2Proof.Machine

/-- Settles O41, for the counters because all are zero and nothing is in flight. -/
theorem resetMeetsTheInvariant : Obligations.ResetMeetsTheInvariant :=
  ⟨reset_inv, by constructor <;> decide⟩

/-- Settles O47: the command answers the one state `State.reset`, whatever the state before. -/
theorem resetZeroesEverything : Obligations.ResetZeroesEverything := fun _ =>
  ⟨State.reset, rfl, rfl, rfl, rfl, rfl, rfl, rfl, rfl, rfl, rfl, fun _ => rfl, rfl, rfl, rfl⟩

/-- From T0 with PC = 0x000, the next two microcycles fetch the word at 0x000 (R60, R61). -/
theorem micro_fetches_first_word {s : State} (hrun : Running s) (ht : s.t = .t0) (hpc : s.pc = 0x000#12) :
    ∃ s1 s2, micro s = .next s1 ∧ s1.ar = 0x000#12 ∧ s1.t = .t1 ∧ micro s1 = .next s2 ∧
      s2.ir = s.read 0x000#12 ∧ s2.pc = 0x001#12 ∧ s2.t = .t2 :=
  ⟨_, _, micro_of_microStep hrun (.fetchAddr ht), hpc, rfl, micro_fetchInstr hrun rfl, congrArg s.read hpc,
    congrArg nextAddress hpc, rfl⟩

/-- Settles O49: both commands answer a state at T0 with PC = 0x000 that does not depend on the state before. -/
theorem resetAndLoadAbandonTheInstruction : Obligations.ResetAndLoadAbandonTheInstruction := by
  refine fun s image => ⟨rfl, rfl, fun cmd hcmd => ?_⟩
  rcases hcmd with rfl | rfl
  · exact micro_fetches_first_word ⟨rfl, rfl⟩ rfl rfl
  · exact micro_fetches_first_word ⟨rfl, rfl⟩ rfl rfl

/-- What is left of the block after so many instructions from reset with no image: it idles, AC is still zero, and each
AND 000 took 6 cycles and 2 counted reads (R119, R125). -/
structure IdledFromReset (k : Nat) (s : State) : Prop extends IdledFor State.reset k s where
  ac : s.ac = 0x0000#16
  cnt : s.cnt = ⟨6 * k, k, 2 * k, 0⟩

/-- With nothing loaded, the word at PC is AND 000. -/
theorem IdledFromReset.word {k : Nat} {s : State} (h : IdledFromReset k s) : s.read s.pc = mriWord .and 0x000#12 :=
  State.read_of_mem_eq State.reset s h.mem s.pc

/-- One AND 000 more adds its 6 cycles and 2 reads, and masks an AC that is zero already (R75). -/
theorem IdledFromReset.succ {k : Nat} {s : State} (h : IdledFromReset k s) :
    ∃ s', step s = .next s' ∧ IdledFromReset (k + 1) s' := by
  obtain ⟨s', hstep, hidle⟩ := h.toIdledFor.succ fun _ => rfl
  cases hstep.symm.trans (step_of_mriWord h.running h.t h.word)
  refine ⟨_, hstep, hidle, ?_, ?_⟩
  · exact (congrArg (· &&& _) h.ac).trans BitVec.zero_and
  · calc
      _ = (⟨s.cnt.cycles + 6, s.cnt.instructions + 1, s.cnt.reads + 2, s.cnt.writes⟩ : Profiler) := rfl
      _ = ⟨6 * (k + 1), k + 1, 2 * (k + 1), 0⟩ := by rw [h.cnt, Nat.mul_succ, Nat.mul_succ]

/-- Settles O54, by induction on the steps, each of which is AND 000. -/
theorem emptyMemoryNeverHalts : Obligations.EmptyMemoryNeverHalts := by
  intro k
  obtain ⟨s', hs', hidle⟩ := core_run_invariant (P := IdledFromReset) (fun _ _ => IdledFromReset.succ)
    ⟨⟨⟨rfl, rfl⟩, rfl, rfl, rfl⟩, rfl, rfl⟩ k
  exact ⟨s', hs', hidle.running.1, hidle.running.2, hidle.ac, hidle.pc.trans (BitVec.zero_add _), hidle.t, hidle.cnt,
    hidle.word ▸ decode_mriWord .and 0x000#12⟩

end Sys2Proof.Machine
end
